-- ==== Sys2Proof/Word.lean ====
section
/-! DEFINITION. The widths of the machine's words (00_scope.md R9, 30_encoding.md R92). -/

namespace Sys2Proof

/-- A byte: a memory byte, a register `V[i]`, a timer, the field `nn` (10_state.md R21, R35, R36). -/
abbrev Byte := BitVec 8

/-- A 16-bit word: an instruction, `I`, `PC`, a return address (10_state.md R24, R25, R28; 30_encoding.md R90). -/
abbrev Word := BitVec 16

/-- A register number: the 4-bit fields `x` and `y` (10_state.md R21: an index can never exceed 15). -/
abbrev Reg := BitVec 4

/-- The 4-bit field `n` (30_encoding.md R92). -/
abbrev Nibble := BitVec 4

/-- The 12-bit field `nnn` (30_encoding.md R92). -/
abbrev Addr := BitVec 12

/-- The number of `VF`, the flag register (10_state.md R22). -/
def regF : Reg := 15

end Sys2Proof
end

