-- ==== Sys2Proof/Config.lean ====
section
/-! DEFINITION. What is fixed for one machine: the sizes the source fixes, the parameters that 00_scope.md R9 lets a
model take as arguments (a record `Params`; its defaults are in Machine/Defaults.lean), and the free values, which are
constants without a body: nothing can be proved of what they are. -/

namespace Sys2Proof

/-- `MEM_SIZE`: the memory has 4096 bytes (00 R9, 20 R60). -/
def memSize : Nat := 4096

/-- `PROG_BASE`: the load address and the reset PC (00 R9, 20 R64). -/
def progBase : Nat := 0x200

/-- `MAX_PROGRAM`: 4096 - 0x200 = 3584 bytes (00 R9, 70 R272). -/
def maxProgram : Nat := memSize - progBase

/-- The font occupies memory 0x000 to 0x04F: 16 glyphs of 5 bytes (42 R183). -/
def fontSize : Nat := 80

/-- `FB_WIDTH` (00 R9, 10 R31). -/
def fbWidth : Nat := 64

/-- `FB_HEIGHT` (00 R9, 10 R31). -/
def fbHeight : Nat := 32

/-- `MEM_LIMIT`, the first invalid address (00 R9, 20 R61; decision D3). -/
inductive MemLimit where
  /-- The default 0xFFF: the byte at 0xFFF exists and no instruction reaches it. -/
  | xFFF
  /-- The alternative 0x1000: every byte is accessible. -/
  | x1000
  deriving DecidableEq, Repr

/-- The value of `MEM_LIMIT`. -/
def MemLimit.toNat : MemLimit → Nat
  | .xFFF => 0xFFF
  | .x1000 => 0x1000

/-- `ADD_FLAG_MODE` (40 R138; decision D5). -/
inductive AddFlagMode where
  | noCarry
  | carry
  deriving DecidableEq, Repr

/-- `SUB_FLAG_MODE` (40 R139, R141; decision D6). -/
inductive SubFlagMode where
  | noBorrow
  | borrow
  deriving DecidableEq, Repr

/-- `VF_DEST_MODE`: VF as the destination of a flag-writing instruction (40 R131; decision D7). -/
inductive VfDestMode where
  | resultWins
  | anyValue
  deriving DecidableEq, Repr

/-- `DRAW_EDGE_MODE` (43 R203, R204; decision D14). -/
inductive DrawEdgeMode where
  | wrap
  | clip
  deriving DecidableEq, Repr

/-- `KEY_SELECT` (44 R223; decision D23). -/
inductive KeySelect where
  | lowest
  | any
  deriving DecidableEq, Repr

/-- `INVALID_OPCODE_REPORT` (60 R235; decision D19). -/
inductive InvalidReport where
  | warn
  | silent
  deriving DecidableEq, Repr

/-- The parameters of 00_scope.md R9 that a model takes as arguments (92_eei_decisions.md, "Points left OPEN"). -/
structure Params where
  memLimit : MemLimit
  addFlag : AddFlagMode
  subFlag : SubFlagMode
  vfDest : VfDestMode
  drawEdge : DrawEdgeMode
  keySelect : KeySelect
  invalidReport : InvalidReport
  /-- `STACK_DEPTH`: any positive integer (10 R29; decision D20). -/
  stackDepth : Nat
  /-- `FONT_DATA`: any 80 bytes (42 R184; decision D13). -/
  fontData : Vector Byte 80
  deriving DecidableEq, Repr

/-- The one condition R9 puts on a parameter that its type does not carry: `STACK_DEPTH` is positive. -/
abbrev Params.wf (p : Params) : Prop := 0 < p.stackDepth

/-- FREE VALUE (log 5). `RAND`: the byte of the k-th draw, a fresh value from 0 to 255 under no law (40 R143, D25). -/
opaque Config.rand : Nat → Byte

/-- FREE VALUE (log 6). `INIT_FILL`: the byte that reset number `k` leaves at an address outside the font and the
image (70 R270, D26). -/
opaque Config.initFill : Nat → Nat → Byte

/-- FREE VALUE (log 7). What VF holds after a flag-writing instruction with x = 15 in mode `any_value` (40 R131). -/
opaque Config.vfAny : Nat → Byte

/-- FREE VALUE (log 8). Which of the pressed keys a wait-key takes in mode `any` (44 R223). -/
opaque Config.keyPick : Nat → Nat

end Sys2Proof
end

