-- ==== Sys2Proof/Syntax.lean ====
section
/-! DEFINITION. The instructions: one constructor per row of spec/opcode_table.json, in the order of
30_encoding.md R100. A constructor carries every field of its word, the ignored ones too (`y` of the shifts, `N` of
5xyN and 9xyN; R93), so that an instruction determines its word. -/

namespace Sys2Proof

/-- The 34 instructions of 30_encoding.md R100. -/
inductive Instr where
  /-- 00E0 `clear-screen` (43 R200). -/
  | clearScreen
  /-- 00EE `return` (41 R162). -/
  | ret
  /-- 1nnn `jump nnn` (41 R163). -/
  | jump (nnn : Addr)
  /-- 2nnn `call nnn` (41 R164). -/
  | call (nnn : Addr)
  /-- 3xnn `skip-eq Vx,nn` (41 R165). -/
  | skipEqImm (x : Reg) (nn : Byte)
  /-- 4xnn `skip-neq Vx,nn` (41 R166). -/
  | skipNeqImm (x : Reg) (nn : Byte)
  /-- 5xyN `skip-eq Vx,Vy`; `n` is ignored (41 R167, 30 R99). -/
  | skipEqReg (x y : Reg) (n : Nibble)
  /-- 9xyN `skip-neq Vx,Vy`; `n` is ignored (41 R168, 30 R99). -/
  | skipNeqReg (x y : Reg) (n : Nibble)
  /-- 6xnn `set Vx,nn` (40 R132). -/
  | setImm (x : Reg) (nn : Byte)
  /-- 7xnn `add Vx,nn` (40 R133). -/
  | addImm (x : Reg) (nn : Byte)
  /-- 8xy0 `set Vx,Vy` (40 R134). -/
  | setReg (x y : Reg)
  /-- 8xy1 `or Vx,Vy` (40 R135). -/
  | orReg (x y : Reg)
  /-- 8xy2 `and Vx,Vy` (40 R136). -/
  | andReg (x y : Reg)
  /-- 8xy3 `xor Vx,Vy` (40 R137). -/
  | xorReg (x y : Reg)
  /-- 8xy4 `add Vx,Vy` (40 R138). -/
  | addReg (x y : Reg)
  /-- 8xy5 `sub Vx,Vy` (40 R139). -/
  | subReg (x y : Reg)
  /-- 8xy6 `shift-right Vx`; `y` is ignored (40 R140). -/
  | shiftRight (x y : Reg)
  /-- 8xy7 `subn Vx,Vy` (40 R141). -/
  | subnReg (x y : Reg)
  /-- 8xyE `shift-left Vx`; `y` is ignored (40 R142). -/
  | shiftLeft (x y : Reg)
  /-- Annn `set I,nnn` (42 R180). -/
  | setI (nnn : Addr)
  /-- Bnnn `jump nnn+V0` (41 R169). -/
  | jumpV0 (nnn : Addr)
  /-- Cxnn `random Vx,nn` (40 R143). -/
  | random (x : Reg) (nn : Byte)
  /-- Dxyn `draw Vx,Vy,n` (43 R201). -/
  | draw (x y : Reg) (n : Nibble)
  /-- Ex9E `skip-if-key Vx` (44 R220). -/
  | skipIfKey (x : Reg)
  /-- ExA1 `skip-if-not-key Vx` (44 R221). -/
  | skipIfNotKey (x : Reg)
  /-- Fx07 `get-delay Vx` (42 R188). -/
  | getDelay (x : Reg)
  /-- Fx0A `wait-key Vx` (44 R222). -/
  | waitKey (x : Reg)
  /-- Fx15 `set-delay Vx` (42 R189). -/
  | setDelay (x : Reg)
  /-- Fx18 `set-sound Vx` (42 R190). -/
  | setSound (x : Reg)
  /-- Fx1E `add-I Vx` (42 R181). -/
  | addI (x : Reg)
  /-- Fx29 `set-I-to-glyph Vx` (42 R182). -/
  | setIToGlyph (x : Reg)
  /-- Fx33 `store-BCD Vx` (42 R185). -/
  | storeBcd (x : Reg)
  /-- Fx55 `dump-regs Vx` (42 R186). -/
  | dumpRegs (x : Reg)
  /-- Fx65 `load-regs Vx` (42 R187). -/
  | loadRegs (x : Reg)
  deriving DecidableEq, Repr

end Sys2Proof
end

