-- ==== Sys2Proof/WellFormed.lean ====
section
/-! DEFINITION. Well-formedness. Every term of `Instr` is well-formed, because its fields have exactly the widths of
30_encoding.md R92 (10_state.md R21: "a register index can never exceed 15"). What has to be checked is the source line
an assembler is given, whose operands are plain numbers: 30_encoding.md R104 and R105. -/

namespace Sys2Proof

/-- Where `nnn` stands in a source line: a number, or a label (30 R104: "a label may stand wherever `nnn` does"). -/
inductive AsmAddr where
  | lit (v : Nat)
  | label (name : String)
  deriving DecidableEq, Repr

/-- One operand of a source line (30 R104). -/
inductive AsmOperand where
  /-- A register name: `V0` is 0, `VF` is 15. -/
  | reg (k : Nat)
  /-- An immediate that stands for `nn`. -/
  | nn (v : Nat)
  /-- An immediate that stands for `n`. -/
  | n (v : Nat)
  /-- A number or label that stands for `nnn`. -/
  | nnn (a : AsmAddr)
  /-- `nnn+V0`, the operand of the jump through V0. -/
  | nnnPlusV0 (a : AsmAddr)
  /-- The index register `I`. -/
  | indexReg
  deriving DecidableEq, Repr

/-- One source line: a mnemonic of R104's table and its operands. -/
structure AsmLine where
  mnemonic : String
  operands : List AsmOperand
  deriving DecidableEq, Repr

/-- The range of `nnn`: 0 to 0xFFF. A label has no range of its own until it is resolved. -/
def AsmAddr.wellFormed : AsmAddr → Bool
  | .lit v => v ≤ 0xFFF
  | .label _ => true

/-- R105, operand by operand: `nn` in 0 to 255, `nnn` in 0 to 0xFFF, `n` in 0 to 15, a register V0 to VF. -/
def AsmOperand.wellFormed : AsmOperand → Bool
  | .reg k => k ≤ 15
  | .nn v => v ≤ 255
  | .n v => v ≤ 15
  | .nnn a => a.wellFormed
  | .nnnPlusV0 a => a.wellFormed
  | .indexReg => true

/-- R105: an assembler refuses a line with an operand out of range. -/
def AsmLine.wellFormed (l : AsmLine) : Bool := l.operands.all AsmOperand.wellFormed

/-- The instruction is the one an assembler writes for its source line: the ignored bits are 0 (R104, column "bits the
assembler fills"). The others are well-formed too, and print in the same syntax (R105). -/
def Instr.canonical : Instr → Bool
  | .skipEqReg _ _ n => n = 0
  | .skipNeqReg _ _ n => n = 0
  | .shiftRight _ y => y = 0
  | .shiftLeft _ y => y = 0
  | _ => true

end Sys2Proof
end

