-- ==== Sys2Proof/Decode.lean ====
section
/-! DEFINITION. The decoder, total on any bytes, and after it the encoder, the decode map of 30_encoding.md R100 as a
table, and the assembler of R104. -/

namespace Sys2Proof

/-! ## Fields of a word -/

/-- The fields of a word (30 R92). -/
structure Fields where
  op : BitVec 4
  x : Reg
  y : Reg
  n : Nibble
  nn : Byte
  nnn : Addr
  deriving DecidableEq, Repr

/-- R92: every field is extracted from the word without condition. -/
def fieldsOf (w : Word) : Fields where
  op := w.extractLsb' 12 4
  x := w.extractLsb' 8 4
  y := w.extractLsb' 4 4
  n := w.extractLsb' 0 4
  nn := w.extractLsb' 0 8
  nnn := w.extractLsb' 0 12

/-- R91: the byte at the lower address is the high byte. -/
def wordOf (hi lo : Byte) : Word := hi ++ lo

/-- The high byte of a word, stored at the lower address (R91, 20 R66). -/
def highByte (w : Word) : Byte := w.extractLsb' 8 8

/-- The low byte of a word. -/
def lowByte (w : Word) : Byte := w.extractLsb' 0 8

/-! ## The decoder -/

/-- Why bytes decode to no instruction. -/
inductive DecodeError where
  /-- Fewer than the two bytes of a word (30 R90). -/
  | shortInput (bytes : Nat)
  /-- The word matches no row of R100 (30 R101). -/
  | invalidOpcode (word : Word)
  deriving DecidableEq, Repr

/-- Family 0: an exact match on the whole word (30 R98). -/
def decodeFamily0 (w : Word) : Except DecodeError Instr :=
  if w = 0x00E0 then .ok .clearScreen
  else if w = 0x00EE then .ok .ret
  else .error (.invalidOpcode w)

/-- Family 8: split by `n` (30 R98). -/
def decodeFamily8 (w : Word) (f : Fields) : Except DecodeError Instr :=
  if f.n = 0x0 then .ok (.setReg f.x f.y)
  else if f.n = 0x1 then .ok (.orReg f.x f.y)
  else if f.n = 0x2 then .ok (.andReg f.x f.y)
  else if f.n = 0x3 then .ok (.xorReg f.x f.y)
  else if f.n = 0x4 then .ok (.addReg f.x f.y)
  else if f.n = 0x5 then .ok (.subReg f.x f.y)
  else if f.n = 0x6 then .ok (.shiftRight f.x f.y)
  else if f.n = 0x7 then .ok (.subnReg f.x f.y)
  else if f.n = 0xE then .ok (.shiftLeft f.x f.y)
  else .error (.invalidOpcode w)

/-- Family E: an exact match on `nn` (30 R98). -/
def decodeFamilyE (w : Word) (f : Fields) : Except DecodeError Instr :=
  if f.nn = 0x9E then .ok (.skipIfKey f.x)
  else if f.nn = 0xA1 then .ok (.skipIfNotKey f.x)
  else .error (.invalidOpcode w)

/-- Family F: an exact match on `nn` (30 R98). -/
def decodeFamilyF (w : Word) (f : Fields) : Except DecodeError Instr :=
  if f.nn = 0x07 then .ok (.getDelay f.x)
  else if f.nn = 0x0A then .ok (.waitKey f.x)
  else if f.nn = 0x15 then .ok (.setDelay f.x)
  else if f.nn = 0x18 then .ok (.setSound f.x)
  else if f.nn = 0x1E then .ok (.addI f.x)
  else if f.nn = 0x29 then .ok (.setIToGlyph f.x)
  else if f.nn = 0x33 then .ok (.storeBcd f.x)
  else if f.nn = 0x55 then .ok (.dumpRegs f.x)
  else if f.nn = 0x65 then .ok (.loadRegs f.x)
  else .error (.invalidOpcode w)

/-- The dispatcher: the top nibble selects a family (30 R97), and families 0, 8, E and F have a second level
(R98, R99). The sixteen nibbles are all named; the last arm is never reached. -/
def decodeWord (w : Word) : Except DecodeError Instr :=
  let f := fieldsOf w
  match f.op with
  | 0x0#4 => decodeFamily0 w
  | 0x1#4 => .ok (.jump f.nnn)
  | 0x2#4 => .ok (.call f.nnn)
  | 0x3#4 => .ok (.skipEqImm f.x f.nn)
  | 0x4#4 => .ok (.skipNeqImm f.x f.nn)
  | 0x5#4 => .ok (.skipEqReg f.x f.y f.n)
  | 0x6#4 => .ok (.setImm f.x f.nn)
  | 0x7#4 => .ok (.addImm f.x f.nn)
  | 0x8#4 => decodeFamily8 w f
  | 0x9#4 => .ok (.skipNeqReg f.x f.y f.n)
  | 0xA#4 => .ok (.setI f.nnn)
  | 0xB#4 => .ok (.jumpV0 f.nnn)
  | 0xC#4 => .ok (.random f.x f.nn)
  | 0xD#4 => .ok (.draw f.x f.y f.n)
  | 0xE#4 => decodeFamilyE w f
  | 0xF#4 => decodeFamilyF w f
  | _ => .error (.invalidOpcode w)

/-- The decoder on bytes: one instruction and the bytes after it. -/
def decode : List Byte → Except DecodeError (Instr × List Byte)
  | hi :: lo :: rest => (decodeWord (wordOf hi lo)).map fun j => (j, rest)
  | bytes => .error (.shortInput bytes.length)

/-- The instruction that the decoder reads from an instruction whose bits are `w`, numbered as spec/opcode_table.json
numbers them. Every row has 16 bits; bits above `nbits` are 0. -/
def decodeTableWord (nbits w : Nat) : Option Instr :=
  let word := BitVec.ofNat 16 (w % 2 ^ nbits)
  match decode [highByte word, lowByte word] with
  | .ok (j, _) => some j
  | .error _ => none

/-! ## The encoder -/

/-- Format FA (30 R94): `oooo aaaa aaaa aaaa`. -/
def wordFA (op : BitVec 4) (nnn : Addr) : Word := op ++ nnn

/-- Format FXK (30 R94): `oooo xxxx kkkk kkkk`, and format FX, whose `ffff ffff` stands where `nn` does. -/
def wordFXK (op : BitVec 4) (x : Reg) (nn : Byte) : Word := op ++ x ++ nn

/-- Format FXYN (30 R94): `oooo xxxx yyyy nnnn`, and format FXY, whose `ffff` stands where `n` does. -/
def wordFXYN (op : BitVec 4) (x y : Reg) (n : Nibble) : Word := op ++ x ++ y ++ n

/-- The word of an instruction, from the formats of 30 R94 and the patterns of R100. -/
def encode : Instr → Word
  | .clearScreen => 0x00E0
  | .ret => 0x00EE
  | .jump nnn => wordFA 0x1 nnn
  | .call nnn => wordFA 0x2 nnn
  | .skipEqImm x nn => wordFXK 0x3 x nn
  | .skipNeqImm x nn => wordFXK 0x4 x nn
  | .skipEqReg x y n => wordFXYN 0x5 x y n
  | .skipNeqReg x y n => wordFXYN 0x9 x y n
  | .setImm x nn => wordFXK 0x6 x nn
  | .addImm x nn => wordFXK 0x7 x nn
  | .setReg x y => wordFXYN 0x8 x y 0x0
  | .orReg x y => wordFXYN 0x8 x y 0x1
  | .andReg x y => wordFXYN 0x8 x y 0x2
  | .xorReg x y => wordFXYN 0x8 x y 0x3
  | .addReg x y => wordFXYN 0x8 x y 0x4
  | .subReg x y => wordFXYN 0x8 x y 0x5
  | .shiftRight x y => wordFXYN 0x8 x y 0x6
  | .subnReg x y => wordFXYN 0x8 x y 0x7
  | .shiftLeft x y => wordFXYN 0x8 x y 0xE
  | .setI nnn => wordFA 0xA nnn
  | .jumpV0 nnn => wordFA 0xB nnn
  | .random x nn => wordFXK 0xC x nn
  | .draw x y n => wordFXYN 0xD x y n
  | .skipIfKey x => wordFXK 0xE x 0x9E
  | .skipIfNotKey x => wordFXK 0xE x 0xA1
  | .getDelay x => wordFXK 0xF x 0x07
  | .waitKey x => wordFXK 0xF x 0x0A
  | .setDelay x => wordFXK 0xF x 0x15
  | .setSound x => wordFXK 0xF x 0x18
  | .addI x => wordFXK 0xF x 0x1E
  | .setIToGlyph x => wordFXK 0xF x 0x29
  | .storeBcd x => wordFXK 0xF x 0x33
  | .dumpRegs x => wordFXK 0xF x 0x55
  | .loadRegs x => wordFXK 0xF x 0x65

/-- The two bytes of an instruction as memory holds them, high byte first (20 R66). -/
def encodeBytes (j : Instr) : List Byte := [highByte (encode j), lowByte (encode j)]

/-! ## The decode map of R100 as a table -/

/-- A row of R100: a word decodes to the row whose `mask` bits equal `bits`. The patterns are UNVERIFIED: the spec's own
choice D1, "[from general knowledge, not in source]" (log 20). -/
structure TableRow where
  pattern : String
  bits : Word
  mask : Word
  build : Fields → Instr

/-- Rows 1 to 10 of R100. -/
def tableRows1 : List TableRow := [
  ⟨"00E0", 0x00E0, 0xFFFF, fun _ => .clearScreen⟩,
  ⟨"00EE", 0x00EE, 0xFFFF, fun _ => .ret⟩,
  ⟨"1nnn", 0x1000, 0xF000, fun f => .jump f.nnn⟩,
  ⟨"2nnn", 0x2000, 0xF000, fun f => .call f.nnn⟩,
  ⟨"3xnn", 0x3000, 0xF000, fun f => .skipEqImm f.x f.nn⟩,
  ⟨"4xnn", 0x4000, 0xF000, fun f => .skipNeqImm f.x f.nn⟩,
  ⟨"5xyN", 0x5000, 0xF000, fun f => .skipEqReg f.x f.y f.n⟩,
  ⟨"9xyN", 0x9000, 0xF000, fun f => .skipNeqReg f.x f.y f.n⟩,
  ⟨"6xnn", 0x6000, 0xF000, fun f => .setImm f.x f.nn⟩,
  ⟨"7xnn", 0x7000, 0xF000, fun f => .addImm f.x f.nn⟩]

/-- Rows 11 to 23 of R100. -/
def tableRows2 : List TableRow := [
  ⟨"8xy0", 0x8000, 0xF00F, fun f => .setReg f.x f.y⟩,
  ⟨"8xy1", 0x8001, 0xF00F, fun f => .orReg f.x f.y⟩,
  ⟨"8xy2", 0x8002, 0xF00F, fun f => .andReg f.x f.y⟩,
  ⟨"8xy3", 0x8003, 0xF00F, fun f => .xorReg f.x f.y⟩,
  ⟨"8xy4", 0x8004, 0xF00F, fun f => .addReg f.x f.y⟩,
  ⟨"8xy5", 0x8005, 0xF00F, fun f => .subReg f.x f.y⟩,
  ⟨"8xy6", 0x8006, 0xF00F, fun f => .shiftRight f.x f.y⟩,
  ⟨"8xy7", 0x8007, 0xF00F, fun f => .subnReg f.x f.y⟩,
  ⟨"8xyE", 0x800E, 0xF00F, fun f => .shiftLeft f.x f.y⟩,
  ⟨"Annn", 0xA000, 0xF000, fun f => .setI f.nnn⟩,
  ⟨"Bnnn", 0xB000, 0xF000, fun f => .jumpV0 f.nnn⟩,
  ⟨"Cxnn", 0xC000, 0xF000, fun f => .random f.x f.nn⟩,
  ⟨"Dxyn", 0xD000, 0xF000, fun f => .draw f.x f.y f.n⟩]

/-- Rows 24 to 34 of R100. -/
def tableRows3 : List TableRow := [
  ⟨"Ex9E", 0xE09E, 0xF0FF, fun f => .skipIfKey f.x⟩,
  ⟨"ExA1", 0xE0A1, 0xF0FF, fun f => .skipIfNotKey f.x⟩,
  ⟨"Fx07", 0xF007, 0xF0FF, fun f => .getDelay f.x⟩,
  ⟨"Fx0A", 0xF00A, 0xF0FF, fun f => .waitKey f.x⟩,
  ⟨"Fx15", 0xF015, 0xF0FF, fun f => .setDelay f.x⟩,
  ⟨"Fx18", 0xF018, 0xF0FF, fun f => .setSound f.x⟩,
  ⟨"Fx1E", 0xF01E, 0xF0FF, fun f => .addI f.x⟩,
  ⟨"Fx29", 0xF029, 0xF0FF, fun f => .setIToGlyph f.x⟩,
  ⟨"Fx33", 0xF033, 0xF0FF, fun f => .storeBcd f.x⟩,
  ⟨"Fx55", 0xF055, 0xF0FF, fun f => .dumpRegs f.x⟩,
  ⟨"Fx65", 0xF065, 0xF0FF, fun f => .loadRegs f.x⟩]

/-- The decode map (30 R100), its 34 rows in the spec's order. -/
def tableRows : List TableRow := tableRows1 ++ tableRows2 ++ tableRows3

/-- A word matches a row when the row's mask bits of the word equal the row's bits (R100). -/
def rowMatches (w : Word) (r : TableRow) : Bool := w &&& r.mask = r.bits

/-- What R100 says a word decodes to, read off the table. -/
def tableDecode (w : Word) : Option Instr :=
  (tableRows.find? (rowMatches w)).map fun r => r.build (fieldsOf w)

/-! ## The assembler (30 R104 to R106) -/

/-- Why an assembler refuses a line. -/
inductive AsmError where
  /-- An operand is out of range (R105). -/
  | outOfRange
  /-- The line is no row of R104's table. -/
  | noSuchForm (mnemonic : String)
  /-- A label that no line defines. -/
  | unknownLabel (name : String)
  deriving DecidableEq, Repr

/-- The value of `nnn`: a label "defines an address" (R104). -/
def resolveAddr (labels : List (String × Nat)) : AsmAddr → Except AsmError Addr
  | .lit v => .ok (BitVec.ofNat 12 v)
  | .label name =>
    match labels.lookup name with
    | some v => if v ≤ 0xFFF then .ok (BitVec.ofNat 12 v) else .error .outOfRange
    | none => .error (.unknownLabel name)

/-- The register named in a source line. -/
def asmReg (k : Nat) : Reg := BitVec.ofNat 4 k

/-- The rows of R104's table whose operands are only registers. -/
def assembleRegs (mnemonic : String) : List Nat → Except AsmError Instr
  | [] =>
    match mnemonic with
    | "clear-screen" => .ok .clearScreen
    | "return" => .ok .ret
    | other => .error (.noSuchForm other)
  | [x] =>
    match mnemonic with
    | "shift-right" => .ok (.shiftRight (asmReg x) 0)
    | "shift-left" => .ok (.shiftLeft (asmReg x) 0)
    | "skip-if-key" => .ok (.skipIfKey (asmReg x))
    | "skip-if-not-key" => .ok (.skipIfNotKey (asmReg x))
    | "get-delay" => .ok (.getDelay (asmReg x))
    | "wait-key" => .ok (.waitKey (asmReg x))
    | "set-delay" => .ok (.setDelay (asmReg x))
    | "set-sound" => .ok (.setSound (asmReg x))
    | "add-I" => .ok (.addI (asmReg x))
    | "set-I-to-glyph" => .ok (.setIToGlyph (asmReg x))
    | "store-BCD" => .ok (.storeBcd (asmReg x))
    | "dump-regs" => .ok (.dumpRegs (asmReg x))
    | "load-regs" => .ok (.loadRegs (asmReg x))
    | other => .error (.noSuchForm other)
  | [x, y] =>
    match mnemonic with
    | "skip-eq" => .ok (.skipEqReg (asmReg x) (asmReg y) 0)
    | "skip-neq" => .ok (.skipNeqReg (asmReg x) (asmReg y) 0)
    | "set" => .ok (.setReg (asmReg x) (asmReg y))
    | "or" => .ok (.orReg (asmReg x) (asmReg y))
    | "and" => .ok (.andReg (asmReg x) (asmReg y))
    | "xor" => .ok (.xorReg (asmReg x) (asmReg y))
    | "add" => .ok (.addReg (asmReg x) (asmReg y))
    | "sub" => .ok (.subReg (asmReg x) (asmReg y))
    | "subn" => .ok (.subnReg (asmReg x) (asmReg y))
    | other => .error (.noSuchForm other)
  | _ => .error (.noSuchForm mnemonic)

/-- The rows of R104's table with a register and `nn`. -/
def assembleRegImm (mnemonic : String) (x : Reg) (nn : Byte) : Except AsmError Instr :=
  match mnemonic with
  | "skip-eq" => .ok (.skipEqImm x nn)
  | "skip-neq" => .ok (.skipNeqImm x nn)
  | "set" => .ok (.setImm x nn)
  | "add" => .ok (.addImm x nn)
  | "random" => .ok (.random x nn)
  | other => .error (.noSuchForm other)

/-- The rows of R104's table, on a line whose operands are in range. -/
def assembleForm (labels : List (String × Nat)) (l : AsmLine) : Except AsmError Instr :=
  match l.operands with
  | [] => assembleRegs l.mnemonic []
  | [.reg x] => assembleRegs l.mnemonic [x]
  | [.reg x, .reg y] => assembleRegs l.mnemonic [x, y]
  | [.reg x, .nn v] => assembleRegImm l.mnemonic (asmReg x) (BitVec.ofNat 8 v)
  | [.reg x, .reg y, .n v] =>
    if l.mnemonic = "draw" then .ok (.draw (asmReg x) (asmReg y) (BitVec.ofNat 4 v))
    else .error (.noSuchForm l.mnemonic)
  | [.nnn a] =>
    if l.mnemonic = "jump" then (resolveAddr labels a).map .jump
    else if l.mnemonic = "call" then (resolveAddr labels a).map .call
    else .error (.noSuchForm l.mnemonic)
  | [.nnnPlusV0 a] =>
    if l.mnemonic = "jump" then (resolveAddr labels a).map .jumpV0
    else .error (.noSuchForm l.mnemonic)
  | [.indexReg, .nnn a] =>
    if l.mnemonic = "set" then (resolveAddr labels a).map .setI
    else .error (.noSuchForm l.mnemonic)
  | _ => .error (.noSuchForm l.mnemonic)

/-- One source line to its instruction: refused when an operand is out of range (R105). -/
def assemble (labels : List (String × Nat)) (l : AsmLine) : Except AsmError Instr :=
  if l.wellFormed then assembleForm labels l else .error .outOfRange

/-- A line of a program: the label it defines, and its instruction; either may be missing (R104). -/
abbrev ProgramLine := Option String × Option AsmLine

/-- The bytes a line takes: one 2-byte word, or none (R104, 30 R90). -/
def lineSize (l : ProgramLine) : Nat := if l.2.isSome then 2 else 0

/-- The address of each label: the program starts at 0x200 (R104, 20 R64). -/
def labelEnv : Nat → List ProgramLine → List (String × Nat)
  | _, [] => []
  | at_, (some name, j) :: rest => (name, at_) :: labelEnv (at_ + lineSize (some name, j)) rest
  | at_, (none, j) :: rest => labelEnv (at_ + lineSize (none, j)) rest

/-- A source program to its image, the bytes that `reset` loads at 0x200. -/
def assembleProgram (src : List ProgramLine) : Except AsmError (List Byte) :=
  src.foldr (fun line acc =>
    match line.2 with
    | none => acc
    | some l => do
      let j ← assemble (labelEnv progBase src) l
      let bytes ← acc
      .ok (encodeBytes j ++ bytes)) (.ok [])

/-- An instruction as a source line (R104). The ignored bits do not show (R105). -/
def disassemble : Instr → AsmLine
  | .clearScreen => ⟨"clear-screen", []⟩
  | .ret => ⟨"return", []⟩
  | .jump nnn => ⟨"jump", [.nnn (.lit nnn.toNat)]⟩
  | .call nnn => ⟨"call", [.nnn (.lit nnn.toNat)]⟩
  | .skipEqImm x nn => ⟨"skip-eq", [.reg x.toNat, .nn nn.toNat]⟩
  | .skipNeqImm x nn => ⟨"skip-neq", [.reg x.toNat, .nn nn.toNat]⟩
  | .skipEqReg x y _ => ⟨"skip-eq", [.reg x.toNat, .reg y.toNat]⟩
  | .skipNeqReg x y _ => ⟨"skip-neq", [.reg x.toNat, .reg y.toNat]⟩
  | .setImm x nn => ⟨"set", [.reg x.toNat, .nn nn.toNat]⟩
  | .addImm x nn => ⟨"add", [.reg x.toNat, .nn nn.toNat]⟩
  | .setReg x y => ⟨"set", [.reg x.toNat, .reg y.toNat]⟩
  | .orReg x y => ⟨"or", [.reg x.toNat, .reg y.toNat]⟩
  | .andReg x y => ⟨"and", [.reg x.toNat, .reg y.toNat]⟩
  | .xorReg x y => ⟨"xor", [.reg x.toNat, .reg y.toNat]⟩
  | .addReg x y => ⟨"add", [.reg x.toNat, .reg y.toNat]⟩
  | .subReg x y => ⟨"sub", [.reg x.toNat, .reg y.toNat]⟩
  | .shiftRight x _ => ⟨"shift-right", [.reg x.toNat]⟩
  | .subnReg x y => ⟨"subn", [.reg x.toNat, .reg y.toNat]⟩
  | .shiftLeft x _ => ⟨"shift-left", [.reg x.toNat]⟩
  | .setI nnn => ⟨"set", [.indexReg, .nnn (.lit nnn.toNat)]⟩
  | .jumpV0 nnn => ⟨"jump", [.nnnPlusV0 (.lit nnn.toNat)]⟩
  | .random x nn => ⟨"random", [.reg x.toNat, .nn nn.toNat]⟩
  | .draw x y n => ⟨"draw", [.reg x.toNat, .reg y.toNat, .n n.toNat]⟩
  | .skipIfKey x => ⟨"skip-if-key", [.reg x.toNat]⟩
  | .skipIfNotKey x => ⟨"skip-if-not-key", [.reg x.toNat]⟩
  | .getDelay x => ⟨"get-delay", [.reg x.toNat]⟩
  | .waitKey x => ⟨"wait-key", [.reg x.toNat]⟩
  | .setDelay x => ⟨"set-delay", [.reg x.toNat]⟩
  | .setSound x => ⟨"set-sound", [.reg x.toNat]⟩
  | .addI x => ⟨"add-I", [.reg x.toNat]⟩
  | .setIToGlyph x => ⟨"set-I-to-glyph", [.reg x.toNat]⟩
  | .storeBcd x => ⟨"store-BCD", [.reg x.toNat]⟩
  | .dumpRegs x => ⟨"dump-regs", [.reg x.toNat]⟩
  | .loadRegs x => ⟨"load-regs", [.reg x.toNat]⟩

end Sys2Proof
end

