-- ==== Sys2Proof/Machine/Defaults.lean ====
section
/-! DEFINITION. The defaults of the parameters (00_scope.md R9): the standard font of 42_memory_timer_bcd.md R184 and the
default of each choice of 92_eei_decisions.md. They stand here, and not in Config, because a test could show one wrong. -/

namespace Sys2Proof.Machine

/-- Digits 0 to 3 of R184, one byte per row, top row first. -/
def glyphs03 : List Byte := [
  0xF0, 0x90, 0x90, 0x90, 0xF0,
  0x20, 0x60, 0x20, 0x20, 0x70,
  0xF0, 0x10, 0xF0, 0x80, 0xF0,
  0xF0, 0x10, 0xF0, 0x10, 0xF0]

/-- Digits 4 to 7 of R184. -/
def glyphs47 : List Byte := [
  0x90, 0x90, 0xF0, 0x10, 0x10,
  0xF0, 0x80, 0xF0, 0x10, 0xF0,
  0xF0, 0x80, 0xF0, 0x90, 0xF0,
  0xF0, 0x10, 0x20, 0x40, 0x40]

/-- Digits 8 to B of R184. -/
def glyphs8B : List Byte := [
  0xF0, 0x90, 0xF0, 0x90, 0xF0,
  0xF0, 0x90, 0xF0, 0x10, 0xF0,
  0xF0, 0x90, 0xF0, 0x90, 0x90,
  0xE0, 0x90, 0xE0, 0x90, 0xE0]

/-- Digits C to F of R184. -/
def glyphsCF : List Byte := [
  0xF0, 0x80, 0x80, 0x80, 0xF0,
  0xE0, 0x90, 0x90, 0x90, 0xE0,
  0xF0, 0x80, 0xF0, 0x80, 0xF0,
  0xF0, 0x80, 0xF0, 0x80, 0x80]

/-- The default `FONT_DATA` (42 R184). UNVERIFIED: the standard CHIP-8 font is, in the spec's words,
"[from general knowledge, not in source]" (log 14). -/
def defaultFont : Vector Byte 80 := ⟨(glyphs03 ++ glyphs47 ++ glyphs8B ++ glyphsCF).toArray, rfl⟩

/-- The default of every parameter (00 R9; log 2). -/
def defaultParams : Params where
  memLimit := .xFFF
  addFlag := .noCarry
  subFlag := .noBorrow
  vfDest := .resultWins
  drawEdge := .wrap
  keySelect := .lowest
  invalidReport := .warn
  stackDepth := 16
  fontData := defaultFont

end Sys2Proof.Machine
end

