-- ==== Sys2Proof/Machine/Memory.lean ====
section
/-! DEFINITION. The one memory array of 4096 bytes (20_memory.md R60): a list of (address, byte) pairs in one canonical
form, what an unlisted address reads as, and the reads and writes of one byte, from which every wider access is built. -/

namespace Sys2Proof.Machine

/-- The memory. `cells` lists the bytes that differ from what an unlisted address is known to hold, by rising address.
`fill` is the number of the draw `INIT_FILL` (70 R270) that the bytes nothing has written come from. -/
structure Memory where
  fill : Nat
  cells : List Host.Cell
  deriving DecidableEq, Repr

/-- What is known of an unlisted address: the font at 0x000 to 0x04F (20 R63, 42 R184), nothing elsewhere (10 R41:
"unspecified: `INIT_FILL` draw"). -/
def unlisted (a : Nat) : Option Byte := defaultFont[a]?

/-- The byte listed for an address. -/
def lookupCell (a : Nat) : List Host.Cell → Option Byte
  | [] => none
  | (b, w) :: rest => if a = b then some w else lookupCell a rest

/-- What the model knows of the byte at an address: what is listed, else what `unlisted` says. -/
def Memory.peek (m : Memory) (a : Nat) : Option Byte := (lookupCell a m.cells).or (unlisted a)

/-- The byte at an address (20 R68 `MemRead`, after its check). A byte that nothing has written since reset is the FREE
VALUE `Config.initFill` (log 6). -/
def Memory.read (m : Memory) (a : Nat) : Byte := (m.peek a).getD (Config.initFill m.fill a)

/-- The cells with one byte written: in address order, and listed only if it differs from `unlisted`. -/
def writeCell (a : Nat) (v : Byte) : List Host.Cell → List Host.Cell
  | [] => if unlisted a = some v then [] else [(a, v)]
  | (b, w) :: rest =>
    if a < b then
      if unlisted a = some v then (b, w) :: rest else (a, v) :: (b, w) :: rest
    else if a = b then
      if unlisted a = some v then rest else (a, v) :: rest
    else (b, w) :: writeCell a v rest

/-- One byte written (20 R68 `MemWrite`, after its check). No region is write-protected (20 R65). -/
def Memory.write (m : Memory) (a : Nat) (v : Byte) : Memory := { m with cells := writeCell a v m.cells }

/-- Bytes at consecutive addresses, read in rising order. -/
def Memory.readBytes (m : Memory) (base count : Nat) : List Byte :=
  (List.range count).map fun k => m.read (base + k)

/-- Bytes at consecutive addresses, written in rising order. -/
def Memory.writeBytes (m : Memory) (base : Nat) : List Byte → Memory
  | [] => m
  | v :: rest => (m.write base v).writeBytes (base + 1) rest

/-- The memory in which nothing is listed, with fill number `k`. -/
def blankMemory (k : Nat) : Memory := ⟨k, []⟩

/-- The cells are in canonical form above address `lo`: strictly rising, below 4096 (20 R60), none equal to what an
unlisted address is known to hold. -/
def cellsWf (lo : Nat) : List Host.Cell → Bool
  | [] => true
  | (a, v) :: rest => lo ≤ a && a < memSize && unlisted a ≠ some v && cellsWf (a + 1) rest

/-- The memory is in canonical form. -/
def Memory.wf (m : Memory) : Bool := cellsWf 0 m.cells

end Sys2Proof.Machine
end

