-- ==== Sys2Proof/Machine/State.lean ====
section
/-! DEFINITION. The state of the machine (10_state.md R20), all of it plain data, the reasons a step can stop, and the
state after reset (10_state.md R41). -/

namespace Sys2Proof.Machine

/-! ## Errors and outcomes -/

/-- The kinds of OutOfBoundsAccess (60_exceptions.md R234). -/
inductive AccessKind where
  /-- A non-fetchable PC (30 R107). -/
  | fetch
  /-- A data read at or above `MEM_LIMIT` (20 R68, R69). -/
  | read
  /-- A data write at or above `MEM_LIMIT` (20 R68, R69). -/
  | write
  /-- A key index above 15 (44 R225). -/
  | key
  /-- A glyph digit above 15 (42 R182). -/
  | glyph
  deriving DecidableEq, Repr

/-- The fatal errors (60 R231). -/
inductive FatalError where
  /-- `return` with an empty stack (60 R232). -/
  | stackUnderflow
  /-- `call` with a full stack (60 R233). -/
  | stackOverflow
  /-- An index out of range (60 R234): its kind, and the lowest invalid address or the index. -/
  | outOfBounds (kind : AccessKind) (value : Nat)
  deriving DecidableEq, Repr

/-- The fault record (60 R237): the error, the address of the failing instruction, and its word, absent for a fetch
fault. -/
structure FaultRecord where
  error : FatalError
  pc0 : Word
  word : Option Word
  deriving DecidableEq, Repr

/-- The run status (10 R37). -/
inductive RunStatus where
  | running
  | faulted (r : FaultRecord)
  deriving DecidableEq, Repr

/-- What one `step` returns (60 R230). -/
inductive StepOutcome where
  /-- One instruction executed; `dirty` is 43 R205. -/
  | ok (dirty : Bool)
  /-- wait-key found no key pressed (44 R222). -/
  | awaitingInput
  /-- The word matches no decode row (60 R235), with the address of the word (60 R231). -/
  | invalidOpcode (pc0 word : Word)
  /-- A fatal error (60 R236), with its record. -/
  | fault (r : FaultRecord)
  deriving DecidableEq, Repr

/-! ## The reasons a step can stop -/

/-- A stop of the model. There is none, so this type has no constructor: every error of this machine has an entry that
the spec describes (60 R235, R236), which the step takes as a next state, and a Faulted machine goes on answering its
fault (60 R238). SAFE: nothing is left out (log 9). -/
inductive Fault
  deriving DecidableEq, Repr

/-- A refusal of the model. -/
inductive Refusal where
  /-- Raised by an arm of `exec` whose instruction has no meaning yet. SAFE. No arm raises it: all 34 have a meaning. -/
  | notModelled (mnemonic : String)
  deriving DecidableEq, Repr

/-! ## The state -/

/-- The framebuffer: 32 rows of 64 one-bit pixels (10 R31). Bit `px` of row `py` is the pixel `fb[px][py]`. -/
abbrev Framebuffer := Vector (BitVec 64) 32

/-- The sixteen key states; true means pressed (10 R34). -/
abbrev Keypad := Vector Bool 16

/-- The machine (10 R20), and four fields of the model's own: `outcome`, `draws`, `params`, and `mem.fill`. -/
structure State where
  /-- V0 to VF (10 R21). -/
  v : Vector Byte 16
  /-- The index register I (10 R24). -/
  i : Word
  /-- PC (10 R25). -/
  pc : Word
  /-- The call stack, the top entry first (10 R28). Its length is `depth`. -/
  stack : List Word
  /-- The framebuffer (10 R31). -/
  fb : Framebuffer
  /-- The keypad (10 R34). -/
  keys : Keypad
  /-- The delay timer DT (10 R35). -/
  dt : Byte
  /-- The sound timer ST (10 R36). -/
  st : Byte
  /-- The run status (10 R37). -/
  status : RunStatus
  /-- The memory (20 R60). -/
  mem : Memory
  /-- MODEL'S OWN: what the last `step` returned (60 R230; log 3). -/
  outcome : StepOutcome
  /-- MODEL'S OWN: how many free values have been drawn (log 4). -/
  draws : Nat
  /-- MODEL'S OWN: the parameters of 00 R9, which no command changes (log 2). -/
  params : Params
  deriving DecidableEq, Repr

/-- The state after a successful reset with an empty image and the default parameters (10 R41, 70 R270). Every value is
the spec's, but those of the model's own fields: `outcome` (log 3), `draws` (log 4), `mem.fill` (log 6), `params`
(log 2). -/
def State.reset : State where
  v := Vector.replicate 16 0
  i := 0
  pc := 0x200
  stack := []
  fb := Vector.replicate 32 0
  keys := Vector.replicate 16 false
  dt := 0
  st := 0
  status := .running
  mem := blankMemory 0
  outcome := .ok false
  draws := 0
  params := defaultParams

end Sys2Proof.Machine
end

