-- ==== Sys2Proof/Machine/Ops.lean ====
section
/-! DEFINITION. The named operations on the state: reading and writing registers, the stack, the framebuffer, and the
one operation by which a fatal error is entered. -/

namespace Sys2Proof.Machine

/-- How a meaning answers. -/
abbrev Result := Host.Outcome State Fault Refusal

/-! ## Registers -/

/-- `V[x]` (00 R12). -/
def State.reg (s : State) (x : Reg) : Byte := s.v[x.toNat]

/-- `V[x] <- b` (00 R12). No register is hardwired (10 R21). -/
def State.setReg (s : State) (x : Reg) (b : Byte) : State := { s with v := s.v.set x.toNat b }

/-- `I <- a`. -/
def State.setI (s : State) (a : Word) : State := { s with i := a }

/-- `PC <- a`. Nothing is checked when PC is written (41 R161). -/
def State.setPc (s : State) (a : Word) : State := { s with pc := a }

/-- `DT <- b`. -/
def State.setDt (s : State) (b : Byte) : State := { s with dt := b }

/-- `ST <- b`. -/
def State.setSt (s : State) (b : Byte) : State := { s with st := b }

/-! ## Call stack, memory, framebuffer -/

/-- The call stack replaced. -/
def State.setStack (s : State) (l : List Word) : State := { s with stack := l }

/-- `push(a)`: at the top (10 R28). -/
def State.push (s : State) (a : Word) : State := s.setStack (a :: s.stack)

/-- The memory replaced. -/
def State.setMem (s : State) (m : Memory) : State := { s with mem := m }

/-- The framebuffer replaced. -/
def State.setFb (s : State) (f : Framebuffer) : State := { s with fb := f }

/-- The pixel `fb[px][py]` of a framebuffer (10 R31). -/
def pixelOf (f : Framebuffer) (px : Fin 64) (py : Fin 32) : Bool := f[py].getLsbD px

/-- The pixel `fb[px][py]` (00 R12). -/
def State.pixel (s : State) (px : Fin 64) (py : Fin 32) : Bool := pixelOf s.fb px py

/-- `fb[px][py] <- fb[px][py] ^ 1` (43 R201). -/
def flipPixel (f : Framebuffer) (px : Fin 64) (py : Fin 32) : Framebuffer :=
  f.set py (f[py] ^^^ BitVec.twoPow 64 px)

/-- The framebuffer with every pixel 0 (43 R200). -/
def clearFb : Framebuffer := Vector.replicate 32 0

/-! ## Outcomes -/

/-- The outcome of the step recorded (60 R230). -/
def State.setOutcome (s : State) (o : StepOutcome) : State := { s with outcome := o }

/-- One free value used up (log 4). -/
def State.drawn (s : State) : State := { s with draws := s.draws + 1 }

/-- The instruction ends with outcome `Ok(dirty)` (30 R110). -/
def State.done (s : State) (dirty : Bool) : Result := .next (s.setOutcome (.ok dirty))

/-- The condition of a skip holds or not: "PC += 2 if condition holds" (41 R165). -/
def State.skipIf (s : State) (c : Bool) : State := if c then s.setPc (s.pc + 2) else s

/-! ## Fatal errors

Entry is one operation. There is no return from it: "There is no return-from-trap instruction and no saved context"
(60 R241); only `reset` leaves the Faulted status. -/

/-- The address of the instruction being executed. PC was advanced by 2 before execution (30 R108; log 10). -/
def State.pc0 (s : State) : Word := s.pc - 2

/-- Fault entry (60 R236): PC back to `pc0`, status Faulted, outcome Fault, nothing else. -/
def State.enterFault (s : State) (r : FaultRecord) : State :=
  { s with pc := r.pc0, status := .faulted r, outcome := .fault r }

/-- `raise E(info)` in an instruction: the record holds `pc0` and the word (60 R231, R237). -/
def State.raise (s : State) (j : Instr) (e : FatalError) : Result :=
  .next (s.enterFault ⟨e, s.pc0, some (encode j)⟩)

/-- An instruction whose one check comes before its first write (00 R13, 60 R239): it raises, or goes on. -/
def State.checked (s : State) (j : Instr) (check : Option FatalError) (rest : Result) : Result :=
  match check with
  | some e => s.raise j e
  | none => rest

/-- InvalidOpcode (60 R235), on the state whose PC is advanced: nothing else changes. Its information is `pc0` and the
word (60 R231). -/
def State.invalidOpcode (s : State) (w : Word) : Result :=
  match s.params.invalidReport with
  | .warn => .next (s.setOutcome (.invalidOpcode s.pc0 w))
  | .silent => s.done false

end Sys2Proof.Machine
end

