-- ==== Sys2Proof/Machine/Flags.lean ====
section
/-! DEFINITION. VF as a flag (10_state.md R22): every flag computation, and the write of a flag and a result. -/

namespace Sys2Proof.Machine

/-- A flag as the value of VF: 1 or 0. -/
def flagByte (c : Bool) : Byte := if c then 1 else 0

/-- The flag of `add Vx,Vy` for the exact sum (40 R138, `ADD_FLAG_MODE`). -/
def addFlagOf (mode : AddFlagMode) (sum : Nat) : Byte :=
  match mode with
  | .noCarry => flagByte (sum ≤ 255)
  | .carry => flagByte (255 < sum)

/-- The flag of `sub` and `subn` for the exact difference (40 R139, R141, `SUB_FLAG_MODE`). -/
def subFlagOf (mode : SubFlagMode) (diff : Int) : Byte :=
  match mode with
  | .noBorrow => flagByte (0 ≤ diff)
  | .borrow => flagByte (diff < 0)

/-- The flag of `shift-right`: the bit shifted out, bit 0 (40 R140). -/
def shiftRightFlag (a : Byte) : Byte := a &&& 1

/-- The flag of `shift-left`: the bit shifted out, bit 7 (40 R142). -/
def shiftLeftFlag (a : Byte) : Byte := (a &&& 0x80) >>> 7

/-- The flag of `add-I` for the exact sum (42 R181). -/
def indexFlag (sum : Nat) : Byte := flagByte (0xFFF < sum)

/-- The flag of `draw`: 0 if a pixel was turned off, else 1 (43 R206). -/
def collisionFlag (turnedOff : Bool) : Byte := if turnedOff then 0 else 1

/-- The flag into VF, then the result into V[x] (40 R131). With x = 15 and `VF_DEST_MODE = any_value`, VF ends holding a
FREE VALUE (log 7). -/
def State.writeFlagged (s : State) (x : Reg) (flag result : Byte) : State :=
  if x = regF ∧ s.params.vfDest = .anyValue then (s.setReg regF (Config.vfAny s.draws)).drawn
  else (s.setReg regF flag).setReg x result

end Sys2Proof.Machine
end

