-- ==== Sys2Proof/Machine/Operands.lean ====
section
/-! DEFINITION. Operand forms (30_encoding.md R95, R96) and the checks on indices computed from operands. -/

namespace Sys2Proof.Machine

/-- `nnn` as a 16-bit value: zero-extended, never sign-extended, scaled or shifted (30 R95). -/
def addrWord (nnn : Addr) : Word := nnn.setWidth 16

/-- A byte as a 16-bit value, zero-extended (30 R95). -/
def byteWord (b : Byte) : Word := b.setWidth 16

/-- The index register as an unbounded address: `I + k` never wraps (20 R68). -/
def State.base (s : State) : Nat := s.i.toNat

/-- The range check of 20 R68 and R69 on the addresses `base .. base + count - 1`: if one is at or above `MEM_LIMIT`,
OutOfBoundsAccess with the lowest invalid address, which is `max(base, MEM_LIMIT)` (42, opening). With `count = 1` it is
the check inside `MemRead` and `MemWrite`; with `count = 0` there is nothing to check (43 R207). -/
def State.rangeError (s : State) (kind : AccessKind) (base count : Nat) : Option FatalError :=
  if 0 < count ∧ s.params.memLimit.toNat < base + count then
    some (.outOfBounds kind (max base s.params.memLimit.toNat))
  else none

/-- A key index taken from a register must be 0 to 15 (44 R225). -/
def keyError (k : Byte) : Option FatalError :=
  if 15 < k.toNat then some (.outOfBounds .key k.toNat) else none

/-- A glyph digit taken from a register must be 0 to 15 (42 R182). -/
def glyphError (d : Byte) : Option FatalError :=
  if 15 < d.toNat then some (.outOfBounds .glyph d.toNat) else none

/-- The number of registers V0 to V[x] inclusive (30 R96). -/
def regCount (x : Reg) : Nat := x.toNat + 1

/-- V0 to V[x] inclusive, in order (42 R186). -/
def State.regsUpTo (s : State) (x : Reg) : List Byte :=
  (List.range (regCount x)).map fun k => s.reg (BitVec.ofNat 4 k)

/-- V[k], V[k+1], ... loaded from a list of bytes, in order (42 R187). -/
def State.loadRegsFrom (s : State) (k : Nat) : List Byte → State
  | [] => s
  | b :: rest => (s.setReg (BitVec.ofNat 4 k) b).loadRegsFrom (k + 1) rest

/-- `key[k]` for an index that has passed its check; false above 15, which no instruction asks for (44 R225; log 21). -/
def State.key (s : State) (k : Nat) : Bool := s.keys[k]?.getD false

/-- The pressed keys, in rising order (44 R222, R223). -/
def State.pressed (s : State) : List Nat := (List.range 16).filter s.key

/-- The three decimal digits of a byte: hundreds, tens, ones (42 R185). -/
def bcdDigits (b : Byte) : List Byte :=
  [BitVec.ofNat 8 (b.toNat / 100), BitVec.ofNat 8 (b.toNat / 10 % 10), BitVec.ofNat 8 (b.toNat % 10)]

/-- The address of the glyph of digit `d`: `FONT_BASE + 5 * d`, with FONT_BASE = 0x000 (42 R182). -/
def glyphAddr (d : Byte) : Word := BitVec.ofNat 16 (5 * d.toNat)

end Sys2Proof.Machine
end

