-- ==== Sys2Proof/Machine/Arith.lean ====
section
/-! DEFINITION. The arithmetic and logic instructions (40_arith_logic.md). None raises, reads memory or changes PC
(R144). Sums and differences are exact integers, narrowed at the write (R130). -/

namespace Sys2Proof.Machine

/-- `set Vx,nn` (6xnn, R132). -/
def execSetImm (x : Reg) (nn : Byte) (s : State) : Result := (s.setReg x nn).done false

/-- `add Vx,nn` (7xnn, R133): wraps, no flag. -/
def execAddImm (x : Reg) (nn : Byte) (s : State) : Result :=
  (s.setReg x (BitVec.ofNat 8 ((s.reg x).toNat + nn.toNat))).done false

/-- `set Vx,Vy` (8xy0, R134). -/
def execSetReg (x y : Reg) (s : State) : Result := (s.setReg x (s.reg y)).done false

/-- `or Vx,Vy` (8xy1, R135): VF is not written (D8). -/
def execOrReg (x y : Reg) (s : State) : Result := (s.setReg x (s.reg x ||| s.reg y)).done false

/-- `and Vx,Vy` (8xy2, R136): VF is not written (D8). -/
def execAndReg (x y : Reg) (s : State) : Result := (s.setReg x (s.reg x &&& s.reg y)).done false

/-- `xor Vx,Vy` (8xy3, R137): VF is not written (D8). -/
def execXorReg (x y : Reg) (s : State) : Result := (s.setReg x (s.reg x ^^^ s.reg y)).done false

/-- The exact sum that `add Vx,Vy` latches, 0 to 510 (R138). -/
def State.sumOf (s : State) (x y : Reg) : Nat := (s.reg x).toNat + (s.reg y).toNat

/-- The exact difference V[x] - V[y], -255 to 255 (R139). -/
def State.diffOf (s : State) (x y : Reg) : Int := ((s.reg x).toNat : Int) - ((s.reg y).toNat : Int)

/-- `add Vx,Vy` (8xy4, R138). -/
def execAddReg (x y : Reg) (s : State) : Result :=
  (s.writeFlagged x (addFlagOf s.params.addFlag (s.sumOf x y)) (BitVec.ofNat 8 (s.sumOf x y))).done false

/-- `sub Vx,Vy` (8xy5, R139). -/
def execSubReg (x y : Reg) (s : State) : Result :=
  (s.writeFlagged x (subFlagOf s.params.subFlag (s.diffOf x y)) (BitVec.ofInt 8 (s.diffOf x y))).done false

/-- `subn Vx,Vy` (8xy7, R141): the minuend is V[y]. -/
def execSubnReg (x y : Reg) (s : State) : Result :=
  (s.writeFlagged x (subFlagOf s.params.subFlag (s.diffOf y x)) (BitVec.ofInt 8 (s.diffOf y x))).done false

/-- `shift-right Vx` (8xy6, R140): y is ignored (D9). -/
def execShiftRight (x _y : Reg) (s : State) : Result :=
  (s.writeFlagged x (shiftRightFlag (s.reg x)) (s.reg x >>> 1)).done false

/-- `shift-left Vx` (8xyE, R142): y is ignored (D9); the corrected flag (90 C6). -/
def execShiftLeft (x _y : Reg) (s : State) : Result :=
  (s.writeFlagged x (shiftLeftFlag (s.reg x)) (s.reg x <<< 1)).done false

/-- `random Vx,nn` (Cxnn, R143): the byte `RAND` is a FREE VALUE (log 5). -/
def execRandom (x : Reg) (nn : Byte) (s : State) : Result :=
  ((s.setReg x (Config.rand s.draws &&& nn)).drawn).done false

end Sys2Proof.Machine
end

