-- ==== Sys2Proof/Machine/Control.lean ====
section
/-! DEFINITION. The control-flow and stack instructions (41_control_flow.md). A target is never checked when it is
written (R161), and none is masked (R170). -/

namespace Sys2Proof.Machine

/-- `return` (00EE, R162): StackUnderflow on an empty stack. -/
def execRet (s : State) : Result :=
  match s.stack with
  | [] => s.raise .ret .stackUnderflow
  | a :: rest => ((s.setStack rest).setPc a).done false

/-- `jump nnn` (1nnn, R163). -/
def execJump (nnn : Addr) (s : State) : Result := (s.setPc (addrWord nnn)).done false

/-- The check of `call` (R164): the stack already holds `STACK_DEPTH` entries. A deeper stack, which no step builds, is
full too (DEDUCED, log 15). -/
def State.callError (s : State) : Option FatalError :=
  if s.params.stackDepth ≤ s.stack.length then some .stackOverflow else none

/-- `call nnn` (2nnn, R164): the pushed PC is the advanced one. -/
def execCall (nnn : Addr) (s : State) : Result :=
  s.checked (.call nnn) s.callError (((s.push s.pc).setPc (addrWord nnn)).done false)

/-- `skip-eq Vx,nn` (3xnn, R165). -/
def execSkipEqImm (x : Reg) (nn : Byte) (s : State) : Result := (s.skipIf (s.reg x = nn)).done false

/-- `skip-neq Vx,nn` (4xnn, R166). -/
def execSkipNeqImm (x : Reg) (nn : Byte) (s : State) : Result := (s.skipIf (s.reg x ≠ nn)).done false

/-- `skip-eq Vx,Vy` (5xyN, R167): N is ignored. -/
def execSkipEqReg (x y : Reg) (_n : Nibble) (s : State) : Result := (s.skipIf (s.reg x = s.reg y)).done false

/-- `skip-neq Vx,Vy` (9xyN, R168): N is ignored. -/
def execSkipNeqReg (x y : Reg) (_n : Nibble) (s : State) : Result := (s.skipIf (s.reg x ≠ s.reg y)).done false

/-- `jump nnn+V0` (Bnnn, R169): the sum 0 to 0x10FE is not reduced to 12 bits. -/
def execJumpV0 (nnn : Addr) (s : State) : Result := (s.setPc (addrWord nnn + byteWord (s.reg 0))).done false

end Sys2Proof.Machine
end

