-- ==== Sys2Proof/Machine/IndexMem.lean ====
section
/-! DEFINITION. The index register, memory, BCD and timer instructions (42_memory_timer_bcd.md). Each memory instruction
checks its whole range before its first write (20_memory.md R69) and leaves I unchanged (D22). -/

namespace Sys2Proof.Machine

/-- `set I,nnn` (Annn, R180). -/
def execSetI (nnn : Addr) (s : State) : Result := (s.setI (addrWord nnn)).done false

/-- `add-I Vx` (Fx1E, R181): VF = 1 exactly when the sum exceeds 0xFFF; I is not reduced to 12 bits (D10). -/
def execAddI (x : Reg) (s : State) : Result :=
  ((s.setReg regF (indexFlag (s.i.toNat + (s.reg x).toNat))).setI
    (BitVec.ofNat 16 (s.i.toNat + (s.reg x).toNat))).done false

/-- `set-I-to-glyph Vx` (Fx29, R182). -/
def execSetIToGlyph (x : Reg) (s : State) : Result :=
  s.checked (.setIToGlyph x) (glyphError (s.reg x)) ((s.setI (glyphAddr (s.reg x))).done false)

/-- `store-BCD Vx` (Fx33, R185). -/
def execStoreBcd (x : Reg) (s : State) : Result :=
  s.checked (.storeBcd x) (s.rangeError .write s.base 3)
    ((s.setMem (s.mem.writeBytes s.base (bcdDigits (s.reg x)))).done false)

/-- `dump-regs Vx` (Fx55, R186). -/
def execDumpRegs (x : Reg) (s : State) : Result :=
  s.checked (.dumpRegs x) (s.rangeError .write s.base (regCount x))
    ((s.setMem (s.mem.writeBytes s.base (s.regsUpTo x))).done false)

/-- `load-regs Vx` (Fx65, R187). -/
def execLoadRegs (x : Reg) (s : State) : Result :=
  s.checked (.loadRegs x) (s.rangeError .read s.base (regCount x))
    ((s.loadRegsFrom 0 (s.mem.readBytes s.base (regCount x))).done false)

/-- `get-delay Vx` (Fx07, R188). -/
def execGetDelay (x : Reg) (s : State) : Result := (s.setReg x s.dt).done false

/-- `set-delay Vx` (Fx15, R189). -/
def execSetDelay (x : Reg) (s : State) : Result := (s.setDt (s.reg x)).done false

/-- `set-sound Vx` (Fx18, R190). -/
def execSetSound (x : Reg) (s : State) : Result := (s.setSt (s.reg x)).done false

end Sys2Proof.Machine
end

