-- ==== Sys2Proof/Machine/Keys.lean ====
section
/-! DEFINITION. The keypad instructions (44_input.md). -/

namespace Sys2Proof.Machine

/-- `skip-if-key Vx` (Ex9E, R220). -/
def execSkipIfKey (x : Reg) (s : State) : Result :=
  s.checked (.skipIfKey x) (keyError (s.reg x)) ((s.skipIf (s.key (s.reg x).toNat)).done false)

/-- `skip-if-not-key Vx` (ExA1, R221). -/
def execSkipIfNotKey (x : Reg) (s : State) : Result :=
  s.checked (.skipIfNotKey x) (keyError (s.reg x)) ((s.skipIf (!s.key (s.reg x).toNat)).done false)

/-- The key that a wait-key stores, of the pressed keys `k :: rest` in rising order (R223): the lowest, or in mode `any`
the one that the FREE VALUE `pick` selects (log 8). -/
def selectKey (mode : KeySelect) (pick : Nat) (k : Nat) (rest : List Nat) : Nat :=
  match mode with
  | .lowest => k
  | .any => ((k :: rest)[pick % (rest.length + 1)]?).getD k

/-- The draw of mode `any` used up; mode `lowest` draws nothing. -/
def State.keyDrawn (s : State) : State :=
  match s.params.keySelect with
  | .lowest => s
  | .any => s.drawn

/-- `wait-key Vx` (Fx0A, R222): with no key pressed, PC back to this instruction and AwaitingInput. -/
def execWaitKey (x : Reg) (s : State) : Result :=
  match s.pressed with
  | [] => .next ((s.setPc s.pc0).setOutcome .awaitingInput)
  | k :: rest =>
    ((s.keyDrawn).setReg x
      (BitVec.ofNat 8 (selectKey s.params.keySelect (Config.keyPick s.draws) k rest))).done false

end Sys2Proof.Machine
end

