-- ==== Sys2Proof/Machine/Sprite.lean ====
section
/-! DEFINITION. The sprite-draw engine (43_sprite_draw.md): clear-screen, draw, and the blitter. -/

namespace Sys2Proof.Machine

/-- Where sprite pixel (column `c`, row `r`) goes when the sprite starts at (`xs`, `ys`): R203 in `wrap` mode, R204 in
`clip` mode, where it may go to no pixel, and the start is first reduced (the spec's own choice; log 20). -/
def placePixel (mode : DrawEdgeMode) (xs ys : Byte) (c r : Nat) : Option (Fin 64 × Fin 32) :=
  match mode with
  | .wrap => some (Fin.ofNat 64 (xs.toNat + c), Fin.ofNat 32 (ys.toNat + r))
  | .clip =>
    if h : xs.toNat % 64 + c < 64 ∧ ys.toNat % 32 + r < 32 then
      some (⟨xs.toNat % 64 + c, h.1⟩, ⟨ys.toNat % 32 + r, h.2⟩)
    else none

/-- The sprite bit of column `c`: bit 7 of the row's byte is column 0 (R202, whose bit order is the spec's own choice;
log 20). -/
def spriteBit (row : Byte) (c : Nat) : Bool := row.getLsbD (7 - c)

/-- The blitter's running state: the framebuffer, and whether a pixel was turned off (R201). -/
structure Blit where
  fb : Framebuffer
  turnedOff : Bool
  deriving DecidableEq, Repr

/-- One pixel XORed with 1: "if fb[px][py] == 1: turned_off <- true" (R201). -/
def blitPixel (b : Blit) : Option (Fin 64 × Fin 32) → Blit
  | some (px, py) => ⟨flipPixel b.fb px py, b.turnedOff || pixelOf b.fb px py⟩
  | none => b

/-- One row of a sprite: columns 0 to 7 (R201). -/
def blitRow (mode : DrawEdgeMode) (xs ys : Byte) (r : Nat) (row : Byte) (b : Blit) : Blit :=
  (List.range 8).foldl
    (fun acc c => if spriteBit row c then blitPixel acc (placePixel mode xs ys c r) else acc) b

/-- The rows of a sprite from row `r` on, in order (R201). -/
def blitRows (mode : DrawEdgeMode) (xs ys : Byte) (r : Nat) : List Byte → Blit → Blit
  | [], b => b
  | row :: rest, b => blitRows mode xs ys (r + 1) rest (blitRow mode xs ys r row b)

/-- A whole sprite XORed onto a framebuffer (R201). -/
def blit (mode : DrawEdgeMode) (xs ys : Byte) (rows : List Byte) (f : Framebuffer) : Blit :=
  blitRows mode xs ys 0 rows ⟨f, false⟩

/-- `clear-screen` (00E0, R200): always dirty (R205). -/
def execClearScreen (s : State) : Result := (s.setFb clearFb).done true

/-- The blit that `draw Vx,Vy,n` makes: all rows read first, coordinates latched (R201). -/
def State.drawBlit (s : State) (x y : Reg) (n : Nibble) : Blit :=
  blit s.params.drawEdge (s.reg x) (s.reg y) (s.mem.readBytes s.base n.toNat) s.fb

/-- `draw Vx,Vy,n` (Dxyn, R201 to R207): always dirty when it does not raise (R205). -/
def execDraw (x y : Reg) (n : Nibble) (s : State) : Result :=
  s.checked (.draw x y n) (s.rangeError .read s.base n.toNat)
    (((s.setFb (s.drawBlit x y n).fb).setReg regF (collisionFlag (s.drawBlit x y n).turnedOff)).done true)

end Sys2Proof.Machine
end

