-- ==== Sys2Proof/Machine/Fetch.lean ====
section
/-! DEFINITION. Fetching an instruction (30_encoding.md R107, R108), and placing one for the next fetch. -/

namespace Sys2Proof.Machine

/-- A PC value is fetchable: even, at least 0x200, and PC + 1 below `MEM_LIMIT` (10 R27). -/
def fetchable (limit : MemLimit) (pc : Word) : Bool :=
  pc.toNat % 2 = 0 && 0x200 ≤ pc.toNat && pc.toNat + 1 < limit.toNat

/-- The word at PC, high byte first (30 R91, R108). -/
def State.wordAtPc (s : State) : Word := wordOf (s.mem.read s.pc.toNat) (s.mem.read (s.pc.toNat + 1))

/-- The fetch: the word at PC, or OutOfBoundsAccess of kind `fetch` with address `pc0`, before any memory is read
(30 R107). -/
def State.fetch (s : State) : Except FatalError Word :=
  if fetchable s.params.memLimit s.pc then .ok s.wordAtPc
  else .error (.outOfBounds .fetch s.pc.toNat)

/-- PC advanced by 2, before the instruction executes (30 R108). -/
def State.advance (s : State) : State := s.setPc (s.pc + 2)

/-- A fatal error of the fetch: PC is still `pc0`, and the record has no word (60 R236, R237). -/
def State.raiseFetch (s : State) (e : FatalError) : Result := .next (s.enterFault ⟨e, s.pc, none⟩)

/-- A Faulted machine's step: nothing changes, and the fault is returned again (60 R238). -/
def State.stuck (s : State) (r : FaultRecord) : Result := .next (s.setOutcome (.fault r))

/-- A word placed where the next fetch reads it, and the status Running that a fetch needs (log 1). -/
def State.placeWord (s : State) (w : Word) : State :=
  { s with mem := s.mem.writeBytes s.pc.toNat [highByte w, lowByte w], status := .running }

end Sys2Proof.Machine
end

