-- ==== Sys2Proof/Machine/Step.lean ====
section
/-! DEFINITION. One step: one fetch-decode-execute cycle (30_encoding.md R107 to R110, 60_exceptions.md R254). The checks
come in the order of 60 R239. -/

namespace Sys2Proof.Machine

/-- `step()`. -/
def step (s : State) : Host.Outcome State Fault Refusal :=
  match s.status with
  | .faulted r => s.stuck r
  | .running =>
    match s.fetch with
    | .error e => s.raiseFetch e
    | .ok w =>
      match decodeWord w with
      | .error _ => s.advance.invalidOpcode w
      | .ok j => exec j s.advance

/-- `s` with the instruction whose table bits are `w` stored where `step` fetches its next instruction. Every row has
16 bits; bits above `nbits` are 0. -/
def State.withFetchWord (s : State) (nbits w : Nat) : State := s.placeWord (BitVec.ofNat 16 (w % 2 ^ nbits))

end Sys2Proof.Machine
end

