-- ==== Sys2Proof/Machine/HostOps.lean ====
section
/-! DEFINITION. The host interface (60_exceptions.md R250): the commands the host may call between steps, what it reads,
and the numeric codes of the outcomes. -/

namespace Sys2Proof.Machine

/-! ## Commands -/

/-- What `reset` returns (60 R230). -/
inductive ResetResult where
  | ok
  /-- The image is longer than 3584 bytes (70 R272). -/
  | programTooLarge (len : Nat)
  deriving DecidableEq, Repr

/-- Memory after reset: `FONT_DATA` at 0x000, the image at 0x200, every other byte the next `INIT_FILL` draw (70 R270,
R271). -/
def State.resetMemory (s : State) (image : List Byte) : Memory :=
  ((blankMemory (s.mem.fill + 1)).writeBytes 0 s.params.fontData.toList).writeBytes progBase image

/-- The state after a successful `reset(image)` (10 R41, 70 R270). The parameters and the random source are no state of
the machine (10 R38), so they go on. -/
def State.afterReset (s : State) (image : List Byte) : State :=
  { State.reset with mem := s.resetMemory image, draws := s.draws, params := s.params }

/-- `reset(image)` (70 R270 to R274): from any status; a failed reset changes nothing (R273). -/
def State.resetWith (s : State) (image : List Byte) : State × ResetResult :=
  if maxProgram < image.length then (s, .programTooLarge image.length)
  else (s.afterReset image, .ok)

/-- One tick of a timer, floored at 0 (60 R245). -/
def tickByte (t : Byte) : Byte := if 0 < t.toNat then t - 1 else t

/-- `tickTimers()` (60 R245), in any status (R238). -/
def State.tickTimers (s : State) : State := (s.setDt (tickByte s.dt)).setSt (tickByte s.st)

/-- `setKeys(k[0..15])` (60 R252): replaces all 16 states, in any status (R238). -/
def State.setKeys (s : State) (k : Keypad) : State := { s with keys := k }

/-- The state after `step()` (60 R254); the outcome it returns stands in the field `outcome`. -/
def State.afterStep (s : State) : State :=
  match step s with
  | .next t => t
  | .fault _ => s
  | .refused _ => s

/-- A command of the host that can change the state (60 R250). -/
inductive Command where
  | reset (image : List Byte)
  | step
  | tickTimers
  | setKeys (k : Keypad)
  deriving DecidableEq, Repr

/-- One command carried out; each is atomic (60 R250, 20 R73). -/
def State.command (s : State) : Command → State
  | .reset image => (s.resetWith image).1
  | .step => s.afterStep
  | .tickTimers => s.tickTimers
  | .setKeys k => s.setKeys k

/-- Commands carried out in order: the host may call them in any order and any number of times (60 R256). -/
def State.commands (s : State) (cs : List Command) : State := cs.foldl State.command s

/-! ## What the host reads -/

/-- `framebuffer()`: a read-only snapshot (60 R253). -/
def State.framebuffer (s : State) : Framebuffer := s.fb

/-- `tone()`: ST > 0 (60 R246). -/
def State.tone (s : State) : Bool := 0 < s.st.toNat

/-- `status()`: Running or the fault record (60 R237). -/
def State.runStatus (s : State) : RunStatus := s.status

/-! ## Codes (60 R230) -/

/-- The code of a fatal error. -/
def errorCode : FatalError → Nat
  | .stackUnderflow => 3
  | .stackOverflow => 4
  | .outOfBounds _ _ => 5

/-- The code of a step's outcome. -/
def outcomeCode : StepOutcome → Nat
  | .ok _ => 0
  | .awaitingInput => 1
  | .invalidOpcode _ _ => 2
  | .fault r => errorCode r.error

/-- The code of a reset's result. -/
def resetCode : ResetResult → Nat
  | .ok => 0
  | .programTooLarge _ => 6

end Sys2Proof.Machine
end

