-- ==== Sys2Proof/Safety.lean ====
section
/-! DEFINITION. The terms claims use: what two states share (frames), how an instruction completes or raises, the
invariant of every run, and the conditions 44_input.md R226 and 60_exceptions.md R256 name. -/

namespace Sys2Proof.Machine

/-! ## Frames -/

/-- One piece of the state: the spec's (10 R20), and the model's own three. -/
inductive Piece where
  | reg (r : Reg)
  | index
  | pc
  | stack
  | pixel (px : Fin 64) (py : Fin 32)
  | keys
  | dt
  | st
  | status
  | byte (a : Nat)
  | outcome
  | draws
  | params
  deriving DecidableEq, Repr

/-- The two states agree on a piece. A byte of memory is what a read of it gives. -/
def Same (s t : State) : Piece → Prop
  | .reg r => t.reg r = s.reg r
  | .index => t.i = s.i
  | .pc => t.pc = s.pc
  | .stack => t.stack = s.stack
  | .pixel px py => t.pixel px py = s.pixel px py
  | .keys => t.keys = s.keys
  | .dt => t.dt = s.dt
  | .st => t.st = s.st
  | .status => t.status = s.status
  | .byte a => t.mem.read a = s.mem.read a
  | .outcome => t.outcome = s.outcome
  | .draws => t.draws = s.draws
  | .params => t.params = s.params

/-- From `s` to `t`, nothing but the allowed pieces changes. -/
def ChangesOnly (s t : State) (allowed : Piece → Prop) : Prop := ∀ p, ¬ allowed p → Same s t p

/-- The pieces of a list, as what is allowed to change. -/
def among (l : List Piece) (p : Piece) : Prop := p ∈ l

/-! ## How an instruction ends -/

/-- The instruction answers a next state, of which `P` holds. -/
def Completes (j : Instr) (s : State) (P : State → Prop) : Prop := ∃ t, exec j s = .next t ∧ P t

/-- The instruction raises `e` (60 R236): PC back to the instruction, the fault record, nothing else changed. `s` is the
state the instruction is given, whose PC is advanced. -/
def RaisesError (j : Instr) (s : State) (e : FatalError) : Prop :=
  ∃ t, exec j s = .next t ∧ t.pc = s.pc - 2 ∧ t.status = .faulted ⟨e, s.pc - 2, some (encode j)⟩ ∧
    t.outcome = .fault ⟨e, s.pc - 2, some (encode j)⟩ ∧ ChangesOnly s t (among [.pc, .status, .outcome])

/-- The instruction's row of 30 R100: its word has the row's bits under the row's mask, and decodes to it. -/
def EncodedAs (j : Instr) (bits mask : Word) : Prop := encode j &&& mask = bits ∧ decodeWord (encode j) = .ok j

/-- A flag went to VF and then a result to V[x] (40 R131). With x = 15 in mode `any_value` nothing is claimed of VF. -/
def FlaggedResult (s t : State) (x : Reg) (flag result : Byte) : Prop :=
  t.outcome = .ok false ∧
  ((x ≠ regF ∨ s.params.vfDest = .resultWins) →
    t.reg x = result ∧ (x ≠ regF → t.reg regF = flag) ∧
    ChangesOnly s t (among [.reg x, .reg regF, .outcome])) ∧
  (x = regF → s.params.vfDest = .anyValue → ChangesOnly s t (among [.reg regF, .draws, .outcome]))

/-- Sprite pixel (c, r) of `draw Vx,Vy,n` is a set bit, and lands on the pixel (px, py) (43 R202 to R204). -/
def SpriteCovers (s : State) (x y : Reg) (n : Nibble) (px : Fin 64) (py : Fin 32) : Prop :=
  ∃ r c, r < n.toNat ∧ c < 8 ∧ (s.mem.read (s.base + r)).getLsbD (7 - c) = true ∧
    match s.params.drawEdge with
    | .wrap => px.val = ((s.reg x).toNat + c) % 64 ∧ py.val = ((s.reg y).toNat + r) % 32
    | .clip => px.val = (s.reg x).toNat % 64 + c ∧ py.val = (s.reg y).toNat % 32 + r

/-! ## The invariant of every run -/

/-- The outcome record agrees with the status: a Faulted machine's last outcome is its fault, and PC names the failing
instruction (60 R236). -/
def State.faultConsistent (s : State) : Bool :=
  match s.status, s.outcome with
  | .faulted r, .fault r' => r = r' && s.pc = r.pc0
  | .faulted _, _ => false
  | .running, .fault _ => false
  | .running, _ => true

/-- Every return address is a fetched PC plus 2 (41 R164): even, and between 0x202 and `MEM_LIMIT` (10 R27). -/
abbrev State.returnsOk (s : State) : Prop :=
  ∀ a ∈ s.stack, a.toNat % 2 = 0 ∧ 0x202 ≤ a.toNat ∧ a.toNat ≤ s.params.memLimit.toNat

/-- What holds of every state a run reaches: the memory is canonical; the stack holds at most `STACK_DEPTH` entries
(10 R29), each a return address; PC is at most 0x10FE (10 R26); the fault record is consistent. -/
abbrev State.Inv (s : State) : Prop :=
  s.mem.wf = true ∧ s.stack.length ≤ s.params.stackDepth ∧ s.returnsOk ∧ s.pc.toNat ≤ 0x10FE ∧
  s.faultConsistent = true

/-! ## Conditions of a run -/

/-- PC is fetchable (10 R27). -/
abbrev State.fetchOk (s : State) : Prop :=
  s.pc.toNat % 2 = 0 ∧ 0x200 ≤ s.pc.toNat ∧ s.pc.toNat + 1 < s.params.memLimit.toNat

/-- The parked state (60 R256): Running, and the word at PC is 1nnn with nnn = PC. -/
abbrev State.parked (s : State) : Prop :=
  s.status = .running ∧ ∃ nnn : Addr, s.wordAtPc = encode (.jump nnn) ∧ nnn.toNat = s.pc.toNat

/-- The awaiting-key condition (44 R226). -/
abbrev State.awaitingKey (s : State) : Prop :=
  s.status = .running ∧ s.fetchOk ∧ (∃ x, decodeWord s.wordAtPc = .ok (.waitKey x)) ∧ s.pressed = []

/-- A safe step: it does not leave the machine Faulted. -/
abbrev State.stepIsSafe (s : State) : Prop := s.afterStep.status = .running

/-! ## Who writes what -/

/-- The instruction belongs to the arithmetic and logic family (40). -/
def isArith : Instr → Bool
  | .setImm _ _ | .addImm _ _ | .setReg _ _ | .orReg _ _ | .andReg _ _ | .xorReg _ _ | .addReg _ _ | .subReg _ _
  | .shiftRight _ _ | .subnReg _ _ | .shiftLeft _ _ | .random _ _ => true
  | _ => false

/-- The instruction writes VF as a flag: exactly the seven of 10 R22. -/
def writesFlag : Instr → Bool
  | .addReg _ _ | .subReg _ _ | .shiftRight _ _ | .subnReg _ _ | .shiftLeft _ _ | .draw _ _ _ | .addI _ => true
  | _ => false

/-- The register is a destination that the instruction names (10 R23). -/
def hasDest (r : Reg) : Instr → Prop
  | .setImm x _ | .addImm x _ | .random x _ | .getDelay x | .waitKey x => r = x
  | .setReg x _ | .orReg x _ | .andReg x _ | .xorReg x _ | .addReg x _ | .subReg x _ | .shiftRight x _
  | .subnReg x _ | .shiftLeft x _ => r = x
  | .loadRegs x => r.toNat ≤ x.toNat
  | _ => False

/-- The instruction can raise the error (60 R231, column "raised by"). -/
def canRaise : FatalError → Instr → Prop
  | .stackUnderflow, j => j = .ret
  | .stackOverflow, j => ∃ nnn, j = .call nnn
  | .outOfBounds .fetch _, _ => False
  | .outOfBounds .read _, j => (∃ x y n, j = .draw x y n) ∨ ∃ x, j = .loadRegs x
  | .outOfBounds .write _, j => (∃ x, j = .storeBcd x) ∨ ∃ x, j = .dumpRegs x
  | .outOfBounds .key _, j => (∃ x, j = .skipIfKey x) ∨ ∃ x, j = .skipIfNotKey x
  | .outOfBounds .glyph _, j => ∃ x, j = .setIToGlyph x

end Sys2Proof.Machine
end

