-- ==== Sys2Proof/Certificates/Slice0/Obligations.lean ====
section
/-! DEFINITION. The statements for the provers. `s` in a statement about `exec` is the state the instruction is given,
whose PC is already the instruction's address plus 2 (30_encoding.md R108). -/

open Sys2Proof
open Sys2Proof.Machine

/-! ## Reset and the host's commands -/

/-- 10 R41, 70 R270, R271, R274: a reset with an image of at most 3584 bytes succeeds from any state, and leaves this
state. The bytes outside font and image are the free value `INIT_FILL`, whatever it is: its form, numbered by `mem.fill`,
is the model's choice (DESIGN CHOICE, log 6). So is that a reset keeps the parameters, the model's own field (DESIGN
CHOICE, log 2 and log 19). -/
def Obligations.ResetGivesTheListedState : Prop :=
  ∀ (s : State) (image : List Byte), image.length ≤ 3584 →
    ∃ t, s.resetWith image = (t, .ok) ∧ (∀ r, t.reg r = 0) ∧ t.i = 0 ∧ t.pc = 0x200 ∧ t.stack = [] ∧
      (∀ px py, t.pixel px py = false) ∧ (∀ k, t.key k = false) ∧ t.dt = 0 ∧ t.st = 0 ∧ t.status = .running ∧
      (∀ (a : Nat) (h : a < 80), t.mem.read a = s.params.fontData[a]) ∧
      (∀ (k : Nat) (h : k < image.length), t.mem.read (0x200 + k) = image[k]) ∧
      (∀ a, (80 ≤ a ∧ a < 0x200) ∨ (0x200 + image.length ≤ a ∧ a < 4096) →
        t.mem.read a = Config.initFill t.mem.fill a) ∧
      t.params = s.params

/-- 70 R272, R273: the limit is 3584 bytes; a longer image is refused with its length and nothing changes. -/
def Obligations.ResetRefusesTooLargeImage : Prop :=
  ∀ (s : State) (image : List Byte),
    (3584 < image.length → s.resetWith image = (s, .programTooLarge image.length) ∧
      resetCode (s.resetWith image).2 = 6) ∧
    (image.length ≤ 3584 → (s.resetWith image).2 = .ok ∧ resetCode (s.resetWith image).2 = 0)

/-- 10 R41: `State.reset` is what a reset with an empty image leaves, with the default parameters, up to the number of
the `INIT_FILL` draw and the count of draws, which are the model's own (log 4, log 6, log 13). -/
def Obligations.ResetStateIsAnEmptyReset : Prop :=
  ∀ s : State, s.params = defaultParams →
    (s.resetWith []).1 = { State.reset with mem := blankMemory (s.mem.fill + 1), draws := s.draws }

/-- The invariant holds right after reset. -/
def Obligations.ResetMeetsTheInvariant : Prop := State.reset.Inv

/-- Every step keeps the invariant, from every state that meets it (10 R26, R29; 41 R164; 60 R236). -/
def Obligations.StepKeepsTheInvariant : Prop :=
  ∀ s t : State, s.Inv → step s = .next t → t.Inv

/-- 60 R256: whatever commands the host calls, in any order and number, the invariant stays. -/
def Obligations.CommandsKeepTheInvariant : Prop :=
  ∀ (cs : List Command) (s : State), s.Inv → (s.commands cs).Inv

/-- 60 R245: each timer above zero is decremented, a zero timer stays, and nothing else changes. -/
def Obligations.TickTimersFloorsAtZero : Prop :=
  ∀ s : State, s.tickTimers.dt.toNat = s.dt.toNat - 1 ∧ s.tickTimers.st.toNat = s.st.toNat - 1 ∧
    ChangesOnly s s.tickTimers (among [.dt, .st])

/-- 60 R252 and R246: `setKeys` replaces all sixteen key states and nothing else; the tone is ST > 0. -/
def Obligations.SetKeysAndTone : Prop :=
  ∀ (s : State) (k : Keypad), (∀ (n : Nat) (h : n < 16), (s.setKeys k).key n = k[n]) ∧
    ChangesOnly s (s.setKeys k) (among [.keys]) ∧ (s.tone = true ↔ 0 < s.st.toNat)

/-! ## Encoding -/

/-- Decoding the word of any instruction gives it back, with every operand at every value. -/
def Obligations.DecodeEncodeRoundTrip : Prop := ∀ j : Instr, decodeWord (encode j) = .ok j

/-- A word that decodes to an instruction is that instruction's word: each valid word has one meaning. -/
def Obligations.EncodeDecodeRoundTrip : Prop :=
  ∀ (w : Word) (j : Instr), decodeWord w = .ok j → encode j = w

/-- 30 R100: the two-level dispatcher (R97 to R99) picks the row whose mask bits equal its match, at most one row
matches a word, and a word that matches no row is InvalidOpcode. -/
def Obligations.DispatcherAgreesWithDecodeMap : Prop :=
  ∀ w : Word, (tableRows.filter (rowMatches w)).length ≤ 1 ∧
    decodeWord w =
      match tableDecode w with
      | some j => .ok j
      | none => .error (.invalidOpcode w)

/-- 30 R101: the invalid words, family by family, and no others. -/
def Obligations.InvalidWordsAreExactlyThese : Prop :=
  ∀ w : Word, decodeWord w = .error (.invalidOpcode w) ↔
    (w.toNat ≤ 0x0FFF ∧ w.toNat ≠ 0x00E0 ∧ w.toNat ≠ 0x00EE) ∨
    (w.toNat / 4096 = 0x8 ∧ w.toNat % 16 ∈ [0x8, 0x9, 0xA, 0xB, 0xC, 0xD, 0xF]) ∨
    (w.toNat / 4096 = 0xE ∧ w.toNat % 256 ∉ [0x9E, 0xA1]) ∨
    (w.toNat / 4096 = 0xF ∧ w.toNat % 256 ∉ [0x07, 0x0A, 0x15, 0x18, 0x1E, 0x29, 0x33, 0x55, 0x65])

/-- 30 R92: the field formulas, and the overlaps nnn = x:nn and nn = y:n. -/
def Obligations.FieldsAreMaskedBits : Prop :=
  ∀ w : Word, (fieldsOf w).op.toNat = w.toNat >>> 12 ∧ (fieldsOf w).x.toNat = (w.toNat >>> 8) &&& 0xF ∧
    (fieldsOf w).y.toNat = (w.toNat >>> 4) &&& 0xF ∧ (fieldsOf w).n.toNat = w.toNat &&& 0xF ∧
    (fieldsOf w).nn.toNat = w.toNat &&& 0xFF ∧ (fieldsOf w).nnn.toNat = w.toNat &&& 0xFFF ∧
    (fieldsOf w).nnn = (fieldsOf w).x ++ (fieldsOf w).nn ∧ (fieldsOf w).nn = (fieldsOf w).y ++ (fieldsOf w).n

/-- 95 sections 2.1 and 2.6: words of families 0, 5, 8, D, E and F written out from the spec's encodings, and what they
are. -/
def Obligations.SpecWordsDecode : Prop :=
  decodeWord 0xD12F = .ok (.draw 1 2 15) ∧ decodeWord 0x00E0 = .ok .clearScreen ∧
  decodeWord 0x8A56 = .ok (.shiftRight 0xA 5) ∧ decodeWord 0x5231 = .ok (.skipEqReg 2 3 1) ∧
  decodeWord 0xE0A1 = .ok (.skipIfNotKey 0) ∧ decodeWord 0xF065 = .ok (.loadRegs 0) ∧
  decodeWord 0xF075 = .error (.invalidOpcode 0xF075) ∧ decodeWord 0x0123 = .error (.invalidOpcode 0x0123)

/-- 30 R91, 20 R66: the word at PC has the byte at PC as its high byte and the byte at PC + 1 as its low byte, and an
instruction's two bytes decode to it and leave the rest. -/
def Obligations.BytesAreBigEndian : Prop :=
  (∀ s : State, s.wordAtPc.toNat = ((s.mem.read s.pc.toNat).toNat <<< 8) ||| (s.mem.read (s.pc.toNat + 1)).toNat) ∧
  ∀ (j : Instr) (rest : List Byte), decode (encodeBytes j ++ rest) = .ok (j, rest)

/-- 30 R104, R105: assembling the source line of an instruction gives it back exactly when its ignored bits are 0, and
a line with an operand out of range is refused. -/
def Obligations.AssemblerInvertsDisassembler : Prop :=
  (∀ (labels : List (String × Nat)) (j : Instr), assemble labels (disassemble j) = .ok j ↔ j.canonical = true) ∧
  ∀ (labels : List (String × Nat)) (l : AsmLine), l.wellFormed = false → assemble labels l = .error .outOfRange

/-! ## The step -/

/-- 30 R107 to R109: in status Running at a fetchable PC whose word decodes to `j`, the step is `exec j` on the state
with PC advanced by 2, and the advance changes nothing else. -/
def Obligations.StepRunsTheDecodedInstruction : Prop :=
  ∀ (s : State) (j : Instr), s.status = .running → s.fetchOk → decodeWord s.wordAtPc = .ok j →
    step s = exec j s.advance ∧ s.advance.pc = s.pc + 2 ∧ ChangesOnly s s.advance (among [.pc]) ∧
    s.wordAtPc = wordOf (s.mem.read s.pc.toNat) (s.mem.read (s.pc.toNat + 1))

/-- 60 R238: a step of a Faulted machine changes nothing and returns the fault again (the model records it in its own
field `outcome`, log 3); ticks and key writes act and leave it Faulted; only a reset makes it Running. -/
def Obligations.FaultedMachineIsStuck : Prop :=
  ∀ (s : State) (r : FaultRecord), s.status = .faulted r →
    (∃ t, step s = .next t ∧ t.outcome = .fault r ∧ ChangesOnly s t (among [.outcome]) ∧
      (s.faultConsistent = true → t = s)) ∧
    s.tickTimers.status = .faulted r ∧ s.tickTimers.dt.toNat = s.dt.toNat - 1 ∧
    s.tickTimers.st.toNat = s.st.toNat - 1 ∧ (∀ k, (s.setKeys k).status = .faulted r ∧ (s.setKeys k).keys = k) ∧
    ∀ image : List Byte, (s.resetWith image).1.status = if image.length ≤ 3584 then .running else .faulted r

/-- 30 R107, 10 R27: a PC is fetchable when it is even, at least 0x200, and PC + 1 is below `MEM_LIMIT`: the fetch then
gives the word. A fetch from any other PC raises OutOfBoundsAccess of kind fetch; only status and outcome change. -/
def Obligations.FetchFaultsOutsideTheFetchableSet : Prop :=
  ∀ s : State,
    (s.pc.toNat % 2 = 0 → 0x200 ≤ s.pc.toNat → s.pc.toNat + 1 < s.params.memLimit.toNat → s.fetch = .ok s.wordAtPc) ∧
    (s.status = .running → (s.pc.toNat % 2 = 1 ∨ s.pc.toNat < 0x200 ∨ s.params.memLimit.toNat ≤ s.pc.toNat + 1) →
    ∃ t, step s = .next t ∧ t.status = .faulted ⟨.outOfBounds .fetch s.pc.toNat, s.pc, none⟩ ∧
      t.outcome = .fault ⟨.outOfBounds .fetch s.pc.toNat, s.pc, none⟩ ∧ ChangesOnly s t (among [.status, .outcome]))

/-- 60 R235: an invalid word changes nothing beyond the fetch; with `warn` it is reported, with its address and the word
(60 R231), and with `silent` it is Ok(false). -/
def Obligations.InvalidOpcodeOnlyAdvancesPc : Prop :=
  ∀ s : State, s.status = .running → s.fetchOk → decodeWord s.wordAtPc = .error (.invalidOpcode s.wordAtPc) →
    ∃ t, step s = .next t ∧ t.pc = s.pc + 2 ∧ t.status = .running ∧
      (s.params.invalidReport = .warn → t.outcome = .invalidOpcode s.pc s.wordAtPc) ∧
      (s.params.invalidReport = .silent → t.outcome = .ok false) ∧
      ChangesOnly s t (among [.pc, .outcome])

/-- The model never stops: every step, from every state, and every instruction, in every state, answers a next state and
no fault or refusal of the model. That fatal errors and InvalidOpcode are next states is the model's choice (DESIGN
CHOICE, log 9). The codes 0 to 5 are those of 60 R230; the type of the outcome already bounds them. -/
def Obligations.StepAlwaysAnswers : Prop :=
  (∀ s : State, ∃ t, step s = .next t ∧ outcomeCode t.outcome ≤ 5) ∧
  ∀ (j : Instr) (s : State), ∃ t, exec j s = .next t

/-- 60 R236, R237: whichever instruction or fetch raised it, the state after a fault is the state before the step, PC
included, apart from status (and the model's record of the outcome, log 3); the record names the instruction's address
and its word, which only a fetch fault lacks. -/
def Obligations.FaultIsPrecise : Prop :=
  ∀ (s t : State) (r : FaultRecord), s.status = .running → step s = .next t → t.status = .faulted r →
    t = { s with status := .faulted r, outcome := .fault r } ∧ r.pc0 = s.pc ∧
    ((s.fetchOk ∧ r.word = some s.wordAtPc) ∨
      (¬ s.fetchOk ∧ r.word = none ∧ r.error = .outOfBounds .fetch s.pc.toNat))

/-- 60 R231: an error is raised only by the instructions its row names. -/
def Obligations.ErrorsComeFromTheirInstructions : Prop :=
  ∀ (j : Instr) (s t : State) (r : FaultRecord), s.status = .running → exec j s = .next t →
    t.status = .faulted r → canRaise r.error j

/-- 43 R205, 30 R110: an instruction that does not raise reports dirty exactly when it is clear-screen or draw. -/
def Obligations.DirtyExactlyForScreenInstructions : Prop :=
  ∀ (j : Instr) (s t : State) (d : Bool), exec j s = .next t → t.outcome = .ok d →
    (d = true ↔ j = .clearScreen ∨ ∃ x y n, j = .draw x y n)

/-- 60 R256: a parked machine stays parked under step, which changes nothing but the outcome record. The spec's "the word
at PC" presupposes a fetchable PC, which is a premise here (log 16). -/
def Obligations.ParkedMachineStaysParked : Prop :=
  ∀ s : State, s.parked → s.fetchOk →
    ∃ t, step s = .next t ∧ t.parked ∧ t.outcome = .ok false ∧ ChangesOnly s t (among [.outcome])

/-- 44 R226: a step from the awaiting-key condition returns AwaitingInput, changes nothing, and leaves the condition;
timer ticks do not end it. -/
def Obligations.AwaitingKeyStepChangesNothing : Prop :=
  ∀ s : State, s.awaitingKey →
    (∃ t, step s = .next t ∧ t.outcome = .awaitingInput ∧ ChangesOnly s t (among [.outcome]) ∧ t.awaitingKey) ∧
    s.tickTimers.awaitingKey

/-- 20 R76: bytes that dump-regs wrote are what a fetch of their addresses reads, at once. -/
def Obligations.NextFetchSeesTheStore : Prop :=
  ∀ (x : Reg) (s t : State) (k : Nat), s.mem.wf = true → s.base + x.toNat < s.params.memLimit.toNat →
    exec (.dumpRegs x) s = .next t → k + 1 ≤ x.toNat →
    (t.setPc (BitVec.ofNat 16 (s.base + k))).wordAtPc =
      wordOf (s.reg (BitVec.ofNat 4 k)) (s.reg (BitVec.ofNat 4 (k + 1)))

/-- Equal memories are equal data: canonical cells that agree on what is known of every address are the same. -/
def Obligations.CanonicalMemoriesAreEqual : Prop :=
  ∀ m m' : Memory, m.wf = true → m'.wf = true → m.fill = m'.fill → (∀ a, m.peek a = m'.peek a) → m = m'

/-! ## Arithmetic and logic -/

/-- 40 R132, R133: set Vx,nn and add Vx,nn (which wraps and writes no flag). -/
def Obligations.ImmediateSetAndAdd : Prop :=
  ∀ (x : Reg) (nn : Byte) (s : State),
    EncodedAs (.setImm x nn) 0x6000 0xF000 ∧
    Completes (.setImm x nn) s (fun t => t.reg x = nn ∧ t.outcome = .ok false ∧
      ChangesOnly s t (among [.reg x, .outcome])) ∧
    EncodedAs (.addImm x nn) 0x7000 0xF000 ∧
    Completes (.addImm x nn) s (fun t => (t.reg x).toNat = ((s.reg x).toNat + nn.toNat) % 256 ∧
      t.outcome = .ok false ∧ ChangesOnly s t (among [.reg x, .outcome]))

/-- 40 R134 to R137: set Vx,Vy and the bitwise operations, which write no flag. -/
def Obligations.RegisterSetAndLogic : Prop :=
  ∀ (x y : Reg) (s : State),
    EncodedAs (.setReg x y) 0x8000 0xF00F ∧
    Completes (.setReg x y) s (fun t => t.reg x = s.reg y ∧ t.outcome = .ok false ∧
      ChangesOnly s t (among [.reg x, .outcome])) ∧
    EncodedAs (.orReg x y) 0x8001 0xF00F ∧
    Completes (.orReg x y) s (fun t => t.reg x = s.reg x ||| s.reg y ∧ t.outcome = .ok false ∧
      ChangesOnly s t (among [.reg x, .outcome])) ∧
    EncodedAs (.andReg x y) 0x8002 0xF00F ∧
    Completes (.andReg x y) s (fun t => t.reg x = s.reg x &&& s.reg y ∧ t.outcome = .ok false ∧
      ChangesOnly s t (among [.reg x, .outcome])) ∧
    EncodedAs (.xorReg x y) 0x8003 0xF00F ∧
    Completes (.xorReg x y) s (fun t => t.reg x = s.reg x ^^^ s.reg y ∧ t.outcome = .ok false ∧
      ChangesOnly s t (among [.reg x, .outcome]))

/-- 40 R138, R131: add Vx,Vy in both flag modes and both VF destination modes. -/
def Obligations.AddRegister : Prop :=
  ∀ (x y : Reg) (s : State), EncodedAs (.addReg x y) 0x8004 0xF00F ∧
    ∃ flag result : Byte,
      (s.params.addFlag = .noCarry → flag = if (s.reg x).toNat + (s.reg y).toNat ≤ 255 then 1 else 0) ∧
      (s.params.addFlag = .carry → flag = if 255 < (s.reg x).toNat + (s.reg y).toNat then 1 else 0) ∧
      result.toNat = ((s.reg x).toNat + (s.reg y).toNat) % 256 ∧
      Completes (.addReg x y) s (fun t => FlaggedResult s t x flag result)

/-- 40 R139, R141, R131: sub Vx,Vy (V[x] - V[y]) and subn Vx,Vy (V[y] - V[x]) in both flag modes. -/
def Obligations.SubtractRegisters : Prop :=
  ∀ (x y : Reg) (s : State),
    EncodedAs (.subReg x y) 0x8005 0xF00F ∧ EncodedAs (.subnReg x y) 0x8007 0xF00F ∧
    (∃ flag result : Byte,
      (s.params.subFlag = .noBorrow → flag = if (s.reg y).toNat ≤ (s.reg x).toNat then 1 else 0) ∧
      (s.params.subFlag = .borrow → flag = if (s.reg x).toNat < (s.reg y).toNat then 1 else 0) ∧
      result.toNat = ((s.reg x).toNat + 256 - (s.reg y).toNat) % 256 ∧
      Completes (.subReg x y) s (fun t => FlaggedResult s t x flag result)) ∧
    ∃ flag result : Byte,
      (s.params.subFlag = .noBorrow → flag = if (s.reg x).toNat ≤ (s.reg y).toNat then 1 else 0) ∧
      (s.params.subFlag = .borrow → flag = if (s.reg y).toNat < (s.reg x).toNat then 1 else 0) ∧
      result.toNat = ((s.reg y).toNat + 256 - (s.reg x).toNat) % 256 ∧
      Completes (.subnReg x y) s (fun t => FlaggedResult s t x flag result)

/-- 40 R140, R142, R131: the shifts read and write Vx only; the flag is the bit shifted out; y has no effect. -/
def Obligations.ShiftsOfVx : Prop :=
  ∀ (x y : Reg) (s : State),
    EncodedAs (.shiftRight x y) 0x8006 0xF00F ∧ EncodedAs (.shiftLeft x y) 0x800E 0xF00F ∧
    (∃ flag result : Byte, flag.toNat = (s.reg x).toNat % 2 ∧ result.toNat = (s.reg x).toNat / 2 ∧
      Completes (.shiftRight x y) s (fun t => FlaggedResult s t x flag result)) ∧
    (∃ flag result : Byte, flag.toNat = (s.reg x).toNat / 128 ∧ result.toNat = (s.reg x).toNat * 2 % 256 ∧
      Completes (.shiftLeft x y) s (fun t => FlaggedResult s t x flag result)) ∧
    ∀ y' : Reg, exec (.shiftRight x y) s = exec (.shiftRight x y') s ∧
      exec (.shiftLeft x y) s = exec (.shiftLeft x y') s

/-- 40 R143: random Vx,nn stores the draw ANDed with nn, whatever the draw is: `Config.rand` is a free value (log 5), so
nothing is claimed of it. A mask of 0 gives 0. -/
def Obligations.RandomMasksADraw : Prop :=
  ∀ (x : Reg) (nn : Byte) (s : State), EncodedAs (.random x nn) 0xC000 0xF000 ∧
    Completes (.random x nn) s (fun t => t.reg x = Config.rand s.draws &&& nn ∧ (nn = 0 → t.reg x = 0) ∧
      t.draws = s.draws + 1 ∧ t.outcome = .ok false ∧ ChangesOnly s t (among [.reg x, .draws, .outcome]))

/-- 40 R144: no instruction of the family raises, reads memory (the result is the same whatever memory holds), or
changes PC beyond the fetch's advance. -/
def Obligations.ArithmeticNeverRaises : Prop :=
  ∀ (j : Instr) (s : State), isArith j = true →
    ∃ t, exec j s = .next t ∧ t.pc = s.pc ∧ t.status = s.status ∧ t.outcome = .ok false ∧
      ∀ m : Memory, exec j (s.setMem m) = .next (t.setMem m)

/-! ## Control flow -/

/-- 41 R163, R169: jump nnn, and jump nnn+V0 whose sum is not reduced to 12 bits. -/
def Obligations.JumpTargets : Prop :=
  ∀ (nnn : Addr) (s : State),
    EncodedAs (.jump nnn) 0x1000 0xF000 ∧
    Completes (.jump nnn) s (fun t => t.pc.toNat = nnn.toNat ∧ t.outcome = .ok false ∧
      ChangesOnly s t (among [.pc, .outcome])) ∧
    EncodedAs (.jumpV0 nnn) 0xB000 0xF000 ∧
    Completes (.jumpV0 nnn) s (fun t => t.pc.toNat = nnn.toNat + (s.reg 0).toNat ∧ t.outcome = .ok false ∧
      ChangesOnly s t (among [.pc, .outcome]))

/-- 41 R164, 60 R233: call pushes the advanced PC and jumps; with `STACK_DEPTH` entries it raises StackOverflow. -/
def Obligations.CallPushesOrOverflows : Prop :=
  ∀ (nnn : Addr) (s : State), EncodedAs (.call nnn) 0x2000 0xF000 ∧
    (s.stack.length < s.params.stackDepth →
      Completes (.call nnn) s (fun t => t.stack = s.pc :: s.stack ∧ t.pc.toNat = nnn.toNat ∧
        t.outcome = .ok false ∧ ChangesOnly s t (among [.pc, .stack, .outcome]))) ∧
    (s.stack.length = s.params.stackDepth → RaisesError (.call nnn) s .stackOverflow)

/-- 41 R162, 60 R232: return pops the top entry into PC, unchecked; on an empty stack it raises StackUnderflow. -/
def Obligations.ReturnPopsOrUnderflows : Prop :=
  ∀ s : State, EncodedAs .ret 0x00EE 0xFFFF ∧
    (∀ (a : Word) (rest : List Word), s.stack = a :: rest →
      Completes .ret s (fun t => t.pc = a ∧ t.stack = rest ∧ t.outcome = .ok false ∧
        ChangesOnly s t (among [.pc, .stack, .outcome]))) ∧
    (s.stack = [] → RaisesError .ret s .stackUnderflow)

/-- 41 R164: a call and then a return, whatever state was set in between but the stack, come back to the instruction
after the call with the stack as it was. -/
def Obligations.CallThenReturnComesBack : Prop :=
  ∀ (nnn : Addr) (s t u : State), s.stack.length < s.params.stackDepth → exec (.call nnn) s = .next t →
    u.stack = t.stack → Completes .ret u (fun w => w.pc = s.pc ∧ w.stack = s.stack)

/-- 41 R165 to R168: the four comparing skips; N of 5xyN and 9xyN is ignored. -/
def Obligations.CompareSkips : Prop :=
  ∀ (x y : Reg) (nn : Byte) (n : Nibble) (s : State),
    EncodedAs (.skipEqImm x nn) 0x3000 0xF000 ∧ EncodedAs (.skipNeqImm x nn) 0x4000 0xF000 ∧
    EncodedAs (.skipEqReg x y n) 0x5000 0xF000 ∧ EncodedAs (.skipNeqReg x y n) 0x9000 0xF000 ∧
    Completes (.skipEqImm x nn) s (fun t => t.pc = (if s.reg x = nn then s.pc + 2 else s.pc) ∧
      t.outcome = .ok false ∧ ChangesOnly s t (among [.pc, .outcome])) ∧
    Completes (.skipNeqImm x nn) s (fun t => t.pc = (if s.reg x = nn then s.pc else s.pc + 2) ∧
      t.outcome = .ok false ∧ ChangesOnly s t (among [.pc, .outcome])) ∧
    Completes (.skipEqReg x y n) s (fun t => t.pc = (if s.reg x = s.reg y then s.pc + 2 else s.pc) ∧
      t.outcome = .ok false ∧ ChangesOnly s t (among [.pc, .outcome])) ∧
    Completes (.skipNeqReg x y n) s (fun t => t.pc = (if s.reg x = s.reg y then s.pc else s.pc + 2) ∧
      t.outcome = .ok false ∧ ChangesOnly s t (among [.pc, .outcome]))

/-! ## Index register, memory, timers -/

/-- 42 R180, R181: set I,nnn; and add-I, which wraps at 16 bits and sets VF exactly when the sum exceeds 0xFFF, from
V[x] as it was (x = 15 included). -/
def Obligations.IndexSetAndAdd : Prop :=
  ∀ (nnn : Addr) (x : Reg) (s : State),
    EncodedAs (.setI nnn) 0xA000 0xF000 ∧
    Completes (.setI nnn) s (fun t => t.i.toNat = nnn.toNat ∧ t.outcome = .ok false ∧
      ChangesOnly s t (among [.index, .outcome])) ∧
    EncodedAs (.addI x) 0xF01E 0xF0FF ∧
    Completes (.addI x) s (fun t => t.i.toNat = (s.i.toNat + (s.reg x).toNat) % 65536 ∧
      t.reg regF = (if 0xFFF < s.i.toNat + (s.reg x).toNat then 1 else 0) ∧ t.outcome = .ok false ∧
      ChangesOnly s t (among [.index, .reg regF, .outcome]))

/-- 42 R182: I becomes 5 times the digit; a digit above 15 raises OutOfBoundsAccess of kind glyph. -/
def Obligations.GlyphAddressOrRaises : Prop :=
  ∀ (x : Reg) (s : State), EncodedAs (.setIToGlyph x) 0xF029 0xF0FF ∧
    ((s.reg x).toNat ≤ 15 → Completes (.setIToGlyph x) s (fun t => t.i.toNat = 5 * (s.reg x).toNat ∧
      t.outcome = .ok false ∧ ChangesOnly s t (among [.index, .outcome]))) ∧
    (15 < (s.reg x).toNat → RaisesError (.setIToGlyph x) s (.outOfBounds .glyph (s.reg x).toNat))

/-- 42 R185, 20 R69: the three digits at I, I+1, I+2 and no other byte; or nothing, and OutOfBoundsAccess of kind write
with the lowest invalid address. -/
def Obligations.StoreBcdDigitsOrRaises : Prop :=
  ∀ (x : Reg) (s : State), s.mem.wf = true →
    EncodedAs (.storeBcd x) 0xF033 0xF0FF ∧
    (s.base + 2 < s.params.memLimit.toNat → Completes (.storeBcd x) s (fun t =>
      (t.mem.read s.base).toNat = (s.reg x).toNat / 100 ∧
      (t.mem.read (s.base + 1)).toNat = (s.reg x).toNat / 10 % 10 ∧
      (t.mem.read (s.base + 2)).toNat = (s.reg x).toNat % 10 ∧ t.outcome = .ok false ∧
      ChangesOnly s t (fun p => p = .outcome ∨ ∃ a, p = .byte a ∧ s.base ≤ a ∧ a ≤ s.base + 2))) ∧
    (s.params.memLimit.toNat ≤ s.base + 2 →
      RaisesError (.storeBcd x) s (.outOfBounds .write (max s.base s.params.memLimit.toNat)))

/-- 42 R186, 20 R69: V0 to V[x] at I to I+x and no other byte, I unchanged; or nothing, and OutOfBoundsAccess of kind
write. -/
def Obligations.DumpRegistersOrRaises : Prop :=
  ∀ (x : Reg) (s : State), s.mem.wf = true →
    EncodedAs (.dumpRegs x) 0xF055 0xF0FF ∧
    (s.base + x.toNat < s.params.memLimit.toNat → Completes (.dumpRegs x) s (fun t =>
      (∀ r : Reg, r.toNat ≤ x.toNat → t.mem.read (s.base + r.toNat) = s.reg r) ∧ t.outcome = .ok false ∧
      ChangesOnly s t (fun p => p = .outcome ∨ ∃ a, p = .byte a ∧ s.base ≤ a ∧ a ≤ s.base + x.toNat))) ∧
    (s.params.memLimit.toNat ≤ s.base + x.toNat →
      RaisesError (.dumpRegs x) s (.outOfBounds .write (max s.base s.params.memLimit.toNat)))

/-- 42 R187, 20 R69: V0 to V[x] from I to I+x, the registers above x and I unchanged; or nothing, and OutOfBoundsAccess
of kind read. -/
def Obligations.LoadRegistersOrRaises : Prop :=
  ∀ (x : Reg) (s : State), EncodedAs (.loadRegs x) 0xF065 0xF0FF ∧
    (s.base + x.toNat < s.params.memLimit.toNat → Completes (.loadRegs x) s (fun t =>
      (∀ r : Reg, r.toNat ≤ x.toNat → t.reg r = s.mem.read (s.base + r.toNat)) ∧ t.outcome = .ok false ∧
      ChangesOnly s t (fun p => p = .outcome ∨ ∃ r : Reg, p = .reg r ∧ r.toNat ≤ x.toNat))) ∧
    (s.params.memLimit.toNat ≤ s.base + x.toNat →
      RaisesError (.loadRegs x) s (.outOfBounds .read (max s.base s.params.memLimit.toNat)))

/-- 95 W8, from 42 R186 and R187: a dump, then any register contents with I and memory kept, then a load, restores V0 to
V[x]. -/
def Obligations.DumpThenLoadRestores : Prop :=
  ∀ (x : Reg) (s t u : State), s.mem.wf = true → s.base + x.toNat < s.params.memLimit.toNat →
    exec (.dumpRegs x) s = .next t → u.mem = t.mem → u.i = t.i → u.params = t.params →
    Completes (.loadRegs x) u (fun w => ∀ r : Reg, r.toNat ≤ x.toNat → w.reg r = s.reg r)

/-- 42 R188 to R190: get-delay, set-delay, set-sound. -/
def Obligations.TimerInstructions : Prop :=
  ∀ (x : Reg) (s : State),
    EncodedAs (.getDelay x) 0xF007 0xF0FF ∧
    Completes (.getDelay x) s (fun t => t.reg x = s.dt ∧ t.outcome = .ok false ∧
      ChangesOnly s t (among [.reg x, .outcome])) ∧
    EncodedAs (.setDelay x) 0xF015 0xF0FF ∧
    Completes (.setDelay x) s (fun t => t.dt = s.reg x ∧ t.outcome = .ok false ∧
      ChangesOnly s t (among [.dt, .outcome])) ∧
    EncodedAs (.setSound x) 0xF018 0xF0FF ∧
    Completes (.setSound x) s (fun t => t.st = s.reg x ∧ (t.tone = true ↔ s.reg x ≠ 0) ∧ t.outcome = .ok false ∧
      ChangesOnly s t (among [.st, .outcome]))

/-! ## Framebuffer -/

/-- 43 R200: every pixel becomes 0, dirty, VF not written. -/
def Obligations.ClearScreenClears : Prop :=
  ∀ s : State, EncodedAs .clearScreen 0x00E0 0xFFFF ∧
    Completes .clearScreen s (fun t => (∀ px py, t.pixel px py = false) ∧ t.outcome = .ok true ∧
      ChangesOnly s t (fun p => p = .outcome ∨ ∃ px py, p = .pixel px py))

/-- 43 R201 to R207: in both edge modes, each pixel is XORed with whether a set sprite bit lands on it; VF is 0 if a
pixel that was on is hit, else 1; a draw of no rows checks nothing, changes no pixel and sets VF to 1; a range that
reaches `MEM_LIMIT` raises and changes nothing. The bit order and the start in clip mode are the spec's own choices
(log 20). -/
def Obligations.DrawXorsTheSprite : Prop :=
  ∀ (x y : Reg) (n : Nibble) (s : State), EncodedAs (.draw x y n) 0xD000 0xF000 ∧
    (n.toNat = 0 ∨ s.base + n.toNat - 1 < s.params.memLimit.toNat → Completes (.draw x y n) s (fun t =>
      (∀ px py, t.pixel px py = true ↔ (s.pixel px py = true ↔ ¬ SpriteCovers s x y n px py)) ∧
      (t.reg regF = 0 ∨ t.reg regF = 1) ∧
      (t.reg regF = 0 ↔ ∃ px py, s.pixel px py = true ∧ SpriteCovers s x y n px py) ∧
      t.outcome = .ok true ∧
      ChangesOnly s t (fun p => p = .outcome ∨ p = .reg regF ∨ ∃ px py, p = .pixel px py))) ∧
    (0 < n.toNat ∧ s.params.memLimit.toNat ≤ s.base + n.toNat - 1 →
      RaisesError (.draw x y n) s (.outOfBounds .read (max s.base s.params.memLimit.toNat)))

/-- 43 R206: drawing the same sprite twice at the same place restores every pixel, and the second draw reports a
collision exactly when the first turned a pixel on. The coordinates are not in VF, which the first draw writes. -/
def Obligations.DrawTwiceRestores : Prop :=
  ∀ (x y : Reg) (n : Nibble) (s t u : State), x ≠ regF → y ≠ regF → t.status = .running →
    exec (.draw x y n) s = .next t → exec (.draw x y n) t = .next u →
    (∀ px py, u.pixel px py = s.pixel px py) ∧
    (u.reg regF = 0 ↔ ∃ px py, s.pixel px py = false ∧ t.pixel px py = true)

/-- 43 R208: within one draw no pixel is visited twice, in either mode. -/
def Obligations.NoPixelVisitedTwice : Prop :=
  ∀ (mode : DrawEdgeMode) (xs ys : Byte) (c r c' r' : Nat) (p : Fin 64 × Fin 32), c < 8 → c' < 8 → r < 15 →
    r' < 15 → placePixel mode xs ys c r = some p → placePixel mode xs ys c' r' = some p → c = c' ∧ r = r'

/-! ## Keypad -/

/-- 44 R220, R221, R225: the key skips, and OutOfBoundsAccess of kind key for an index above 15. -/
def Obligations.KeySkipsOrRaise : Prop :=
  ∀ (x : Reg) (s : State),
    EncodedAs (.skipIfKey x) 0xE09E 0xF0FF ∧ EncodedAs (.skipIfNotKey x) 0xE0A1 0xF0FF ∧
    (∀ h : (s.reg x).toNat < 16,
      Completes (.skipIfKey x) s (fun t => t.pc = (if s.keys[(s.reg x).toNat] then s.pc + 2 else s.pc) ∧
        t.outcome = .ok false ∧ ChangesOnly s t (among [.pc, .outcome])) ∧
      Completes (.skipIfNotKey x) s (fun t => t.pc = (if s.keys[(s.reg x).toNat] then s.pc else s.pc + 2) ∧
        t.outcome = .ok false ∧ ChangesOnly s t (among [.pc, .outcome]))) ∧
    (15 < (s.reg x).toNat →
      RaisesError (.skipIfKey x) s (.outOfBounds .key (s.reg x).toNat) ∧
      RaisesError (.skipIfNotKey x) s (.outOfBounds .key (s.reg x).toNat))

/-- 44 R222, R223: with no key pressed PC goes back and the outcome is AwaitingInput; else the lowest pressed key, or in
mode `any` some pressed key, goes to V[x]. -/
def Obligations.WaitKeyBlocksOrStores : Prop :=
  ∀ (x : Reg) (s : State), EncodedAs (.waitKey x) 0xF00A 0xF0FF ∧
    ((∀ (k : Nat) (h : k < 16), s.keys[k] = false) → Completes (.waitKey x) s (fun t => t.pc = s.pc - 2 ∧
      t.outcome = .awaitingInput ∧ ChangesOnly s t (among [.pc, .outcome]))) ∧
    (∀ (k : Nat) (h : k < 16), s.keys[k] = true → s.params.keySelect = .lowest →
      (∀ (j : Nat) (hj : j < k), s.keys[j] = false) → Completes (.waitKey x) s (fun t => (t.reg x).toNat = k ∧
        t.outcome = .ok false ∧ ChangesOnly s t (among [.reg x, .outcome]))) ∧
    (∀ (k : Nat) (h : k < 16), s.keys[k] = true → s.params.keySelect = .any →
      Completes (.waitKey x) s (fun t => (∃ (j : Nat) (hj : j < 16), s.keys[j] = true ∧ (t.reg x).toNat = j) ∧
        t.outcome = .ok false ∧ ChangesOnly s t (among [.reg x, .draws, .outcome])))

/-! ## Who writes what, over all instructions -/

/-- 10 R22, R23: a register changes only as a destination the instruction names, and VF also by the seven flag-writing
instructions. -/
def Obligations.RegisterWriters : Prop :=
  ∀ (j : Instr) (s t : State) (r : Reg), exec j s = .next t → t.reg r ≠ s.reg r →
    hasDest r j ∨ (r = regF ∧ writesFlag j = true)

/-- 10 R24: no instruction other than Annn, Fx1E and Fx29 changes I; Annn leaves at most 0xFFF and Fx29 at most 0x4B. -/
def Obligations.IndexRegisterWriters : Prop :=
  ∀ (j : Instr) (s t : State), exec j s = .next t → t.i ≠ s.i →
    ((∃ nnn, j = .setI nnn) ∧ t.i.toNat ≤ 0xFFF) ∨ (∃ x, j = .addI x) ∨
    ((∃ x, j = .setIToGlyph x) ∧ t.i.toNat ≤ 0x4B)

/-- 10 R28: only call and return touch the stack, by one entry at the top. -/
def Obligations.StackWriters : Prop :=
  ∀ (j : Instr) (s t : State), exec j s = .next t → t.stack ≠ s.stack →
    ((∃ nnn, j = .call nnn) ∧ t.stack = s.pc :: s.stack) ∨ (j = .ret ∧ ∃ a, s.stack = a :: t.stack)

/-- 10 R33: only clear-screen and draw write the framebuffer. -/
def Obligations.FramebufferWriters : Prop :=
  ∀ (j : Instr) (s t : State), exec j s = .next t → t.fb ≠ s.fb →
    j = .clearScreen ∨ ∃ x y n, j = .draw x y n

/-- 20 R60, R61, R70: only store-BCD and dump-regs change memory, only at I to I+2 or I to I+x, and never at or above
`MEM_LIMIT`. -/
def Obligations.MemoryWriters : Prop :=
  ∀ (j : Instr) (s t : State) (a : Nat), s.mem.wf = true → exec j s = .next t → t.mem.read a ≠ s.mem.read a →
    a < s.params.memLimit.toNat ∧ s.base ≤ a ∧
    (((∃ x, j = .storeBcd x) ∧ a ≤ s.base + 2) ∨ ∃ x : Reg, j = .dumpRegs x ∧ a ≤ s.base + x.toNat)

/-- 10 R34 to R36: DT is written only by set-delay and ST only by set-sound; no instruction writes the keypad; and none
changes the parameters, which are the model's own field (log 2). -/
def Obligations.TimerAndKeypadWriters : Prop :=
  ∀ (j : Instr) (s t : State), exec j s = .next t →
    (t.dt ≠ s.dt → ∃ x, j = .setDelay x) ∧ (t.st ≠ s.st → ∃ x, j = .setSound x) ∧ t.keys = s.keys ∧
    t.params = s.params
end

