-- ==== Sys2Proof/Laws/Encoding.lean ====
section
/-! SUPPORT. The value of a word built from fields, and the fields of a word, so that encoding questions become linear
arithmetic (30_encoding.md R92, R94). -/

namespace Sys2Proof

/-! ## The value of a word, one lemma per format -/

/-- An append is a sum. -/
theorem toNat_append_add {v w : Nat} (a : BitVec v) (b : BitVec w) : (a ++ b).toNat = a.toNat * 2 ^ w + b.toNat := by
  rw [BitVec.toNat_append, ← Nat.shiftLeft_add_eq_or_of_lt b.isLt, Nat.shiftLeft_eq]

/-- Format FA: `oooo aaaa aaaa aaaa`. -/
theorem toNat_FA (op : BitVec 4) (nnn : Addr) : (wordFA op nnn).toNat = op.toNat * 4096 + nnn.toNat :=
  toNat_append_add op nnn

/-- Format FXK: `oooo xxxx kkkk kkkk`. -/
theorem toNat_FXK (op : BitVec 4) (x : Reg) (nn : Byte) :
    (wordFXK op x nn).toNat = op.toNat * 4096 + x.toNat * 256 + nn.toNat := by
  have h := toNat_append_add (op ++ x) nn
  rw [toNat_append_add op x] at h
  refine h.trans ?_
  omega

/-- Formats FXY and FXYN: `oooo xxxx yyyy nnnn`. -/
theorem toNat_FXYN (op : BitVec 4) (x y : Reg) (n : Nibble) :
    (wordFXYN op x y n).toNat = op.toNat * 4096 + x.toNat * 256 + y.toNat * 16 + n.toNat := by
  have h := toNat_append_add (op ++ x ++ y) n
  rw [toNat_append_add (op ++ x) y, toNat_append_add op x] at h
  refine h.trans ?_
  omega

/-! ## The fields of a word, as numbers -/

theorem toNat_field_op (w : Word) : (fieldsOf w).op.toNat = w.toNat / 4096 := by
  have := w.isLt
  simp [fieldsOf, Nat.shiftRight_eq_div_pow]
  omega

theorem toNat_field_x (w : Word) : (fieldsOf w).x.toNat = w.toNat / 256 % 16 := by
  simp [fieldsOf, Nat.shiftRight_eq_div_pow]

theorem toNat_field_y (w : Word) : (fieldsOf w).y.toNat = w.toNat / 16 % 16 := by
  simp [fieldsOf, Nat.shiftRight_eq_div_pow]

theorem toNat_field_n (w : Word) : (fieldsOf w).n.toNat = w.toNat % 16 := by
  simp [fieldsOf]

theorem toNat_field_nn (w : Word) : (fieldsOf w).nn.toNat = w.toNat % 256 := by
  simp [fieldsOf]

theorem toNat_field_nnn (w : Word) : (fieldsOf w).nnn.toNat = w.toNat % 4096 := by
  simp [fieldsOf]

/-! ## The fields of a word built from fields -/

theorem fieldsOf_FA (op : BitVec 4) (nnn : Addr) :
    (fieldsOf (wordFA op nnn)).op = op ∧ (fieldsOf (wordFA op nnn)).nnn = nnn := by
  have h1 := op.isLt
  have h2 := nnn.isLt
  constructor <;> apply BitVec.eq_of_toNat_eq
  · rw [toNat_field_op, toNat_FA]
    omega
  · rw [toNat_field_nnn, toNat_FA]
    omega

theorem fieldsOf_FXK (op : BitVec 4) (x : Reg) (nn : Byte) :
    (fieldsOf (wordFXK op x nn)).op = op ∧ (fieldsOf (wordFXK op x nn)).x = x ∧ (fieldsOf (wordFXK op x nn)).nn = nn := by
  have h1 := op.isLt
  have h2 := x.isLt
  have h3 := nn.isLt
  refine ⟨?_, ?_, ?_⟩ <;> apply BitVec.eq_of_toNat_eq
  · rw [toNat_field_op, toNat_FXK]
    omega
  · rw [toNat_field_x, toNat_FXK]
    omega
  · rw [toNat_field_nn, toNat_FXK]
    omega

theorem fieldsOf_FXYN (op : BitVec 4) (x y : Reg) (n : Nibble) :
    (fieldsOf (wordFXYN op x y n)).op = op ∧ (fieldsOf (wordFXYN op x y n)).x = x ∧
    (fieldsOf (wordFXYN op x y n)).y = y ∧ (fieldsOf (wordFXYN op x y n)).n = n := by
  have h1 := op.isLt
  have h2 := x.isLt
  have h3 := y.isLt
  have h4 := n.isLt
  refine ⟨?_, ?_, ?_, ?_⟩ <;> apply BitVec.eq_of_toNat_eq
  · rw [toNat_field_op, toNat_FXYN]
    omega
  · rw [toNat_field_x, toNat_FXYN]
    omega
  · rw [toNat_field_y, toNat_FXYN]
    omega
  · rw [toNat_field_n, toNat_FXYN]
    omega

/-! ## The masks of R100, as fields -/

theorem getLsbD_FA (op : BitVec 4) (nnn : Addr) (k : Nat) :
    (wordFA op nnn).getLsbD k = if k < 12 then nnn.getLsbD k else op.getLsbD (k - 12) :=
  BitVec.getLsbD_append (x := op) (y := nnn) (i := k)

theorem getLsbD_FXK (op : BitVec 4) (x : Reg) (nn : Byte) (k : Nat) :
    (wordFXK op x nn).getLsbD k =
      if k < 8 then nn.getLsbD k else if k - 8 < 4 then x.getLsbD (k - 8) else op.getLsbD (k - 8 - 4) := by
  rw [← BitVec.getLsbD_append (x := op) (y := x)]
  exact BitVec.getLsbD_append (x := op ++ x) (y := nn) (i := k)

theorem getLsbD_FXYN (op : BitVec 4) (x y : Reg) (n : Nibble) (k : Nat) :
    (wordFXYN op x y n).getLsbD k =
      if k < 4 then n.getLsbD k else if k - 4 < 4 then y.getLsbD (k - 4)
      else if k - 4 - 4 < 4 then x.getLsbD (k - 4 - 4) else op.getLsbD (k - 4 - 4 - 4) := by
  rw [← BitVec.getLsbD_append (x := op) (y := x), ← BitVec.getLsbD_append (x := op ++ x) (y := y)]
  exact BitVec.getLsbD_append (x := op ++ x ++ y) (y := n) (i := k)

/-- The mask of families without a second level keeps the family nibble. -/
theorem and_F000 (w : Word) : w &&& 0xF000 = wordFA (fieldsOf w).op 0 := by
  apply BitVec.eq_of_getLsbD_eq
  intro k hk
  rw [getLsbD_FA]
  interval_cases k <;> simp [fieldsOf]

/-- The mask of family 8 keeps the family nibble and `n`. -/
theorem and_F00F (w : Word) : w &&& 0xF00F = wordFXYN (fieldsOf w).op 0 0 (fieldsOf w).n := by
  apply BitVec.eq_of_getLsbD_eq
  intro k hk
  rw [getLsbD_FXYN]
  interval_cases k <;> simp [fieldsOf]

/-- The mask of families E and F keeps the family nibble and `nn`. -/
theorem and_F0FF (w : Word) : w &&& 0xF0FF = wordFXK (fieldsOf w).op 0 (fieldsOf w).nn := by
  apply BitVec.eq_of_getLsbD_eq
  intro k hk
  rw [getLsbD_FXK]
  interval_cases k <;> simp [fieldsOf]

/-- The mask of family 0 keeps the whole word. -/
theorem and_FFFF (w : Word) : w &&& 0xFFFF = w := BitVec.and_allOnes (x := w)

end Sys2Proof
end

