-- ==== Sys2Proof/Laws/Memory.lean ====
section
/-! SUPPORT. The laws of memory: a read after a write to the same place gives the value written, a write leaves every
other place alone, and every memory operation keeps the canonical form. -/

namespace Sys2Proof.Machine

/-! ## Cells -/

theorem lookupCell_eq_none_of_lt (lo a : Nat) (cells : List Host.Cell) (h : cellsWf lo cells = true) (ha : a < lo) :
    lookupCell a cells = none := by
  induction cells generalizing lo with
  | nil => rfl
  | cons c rest ih =>
    obtain ⟨b, w⟩ := c
    simp only [cellsWf, Bool.and_eq_true, decide_eq_true_eq] at h
    simp only [lookupCell, if_neg (show ¬ a = b by omega)]
    exact ih (b + 1) h.2 (by omega)

theorem cellsWf_mono (lo lo' : Nat) (cells : List Host.Cell) (h : cellsWf lo cells = true) (hl : lo' ≤ lo) :
    cellsWf lo' cells = true := by
  cases cells with
  | nil => rfl
  | cons c rest =>
    obtain ⟨b, w⟩ := c
    simp only [cellsWf, Bool.and_eq_true, decide_eq_true_eq] at h ⊢
    exact ⟨⟨⟨by omega, h.1.1.2⟩, h.1.2⟩, h.2⟩

/-- What is known of a byte after a write, on canonical cells. -/
theorem lookupCell_writeCell (lo a b : Nat) (v : Byte) (cells : List Host.Cell) (h : cellsWf lo cells = true) :
    (lookupCell b (writeCell a v cells)).or (unlisted b) =
      if b = a then some v else (lookupCell b cells).or (unlisted b) := by
  induction cells generalizing lo with
  | nil =>
    by_cases hu : unlisted a = some v <;> by_cases hb : b = a <;> simp [writeCell, lookupCell, hu, hb]
  | cons c rest ih =>
    obtain ⟨d, w⟩ := c
    simp only [cellsWf, Bool.and_eq_true, decide_eq_true_eq] at h
    have ih' := ih (d + 1) h.2
    have hrest : d ≥ a → lookupCell a rest = none := fun hd =>
      lookupCell_eq_none_of_lt (d + 1) a rest h.2 (by omega)
    rcases Nat.lt_trichotomy a d with hlt | heq | hgt
    · by_cases hu : unlisted a = some v
      · by_cases hb : b = a
        · subst hb
          simp [writeCell, lookupCell, hu, hlt, Nat.ne_of_lt hlt, hrest (by omega)]
        · simp [writeCell, lookupCell, hu, hlt, hb]
      · by_cases hb : b = a <;> simp [writeCell, lookupCell, hu, hlt, hb]
    · subst heq
      by_cases hu : unlisted a = some v
      · by_cases hb : b = a
        · subst hb
          simp [writeCell, hu, hrest (by omega)]
        · simp [writeCell, lookupCell, hu, hb]
      · by_cases hb : b = a <;> simp [writeCell, lookupCell, hu, hb]
    · have h1 : ¬ a < d := by omega
      have h2 : ¬ a = d := by omega
      by_cases hbd : b = d
      · have hb : ¬ b = a := by omega
        simp [writeCell, lookupCell, h1, h2, hbd]
        intro hda
        omega
      · simpa [writeCell, lookupCell, h1, h2, hbd] using ih'

/-- A write keeps the cells canonical. -/
theorem cellsWf_writeCell (lo a : Nat) (v : Byte) (cells : List Host.Cell) (h : cellsWf lo cells = true)
    (hlo : lo ≤ a) (ha : a < memSize) : cellsWf lo (writeCell a v cells) = true := by
  induction cells generalizing lo with
  | nil => by_cases hu : unlisted a = some v <;> simp [writeCell, hu, cellsWf, hlo, ha]
  | cons c rest ih =>
    obtain ⟨d, w⟩ := c
    have h' := h
    simp only [cellsWf, Bool.and_eq_true, decide_eq_true_eq] at h
    rcases Nat.lt_trichotomy a d with hlt | heq | hgt
    · by_cases hu : unlisted a = some v
      · simpa [writeCell, hlt, hu] using h'
      · simp only [writeCell, hlt, hu, if_true, if_false, cellsWf, Bool.and_eq_true, decide_eq_true_eq]
        exact ⟨⟨⟨hlo, ha⟩, hu⟩, ⟨⟨by omega, h.1.1.2⟩, h.1.2⟩, h.2⟩
    · subst heq
      by_cases hu : unlisted a = some v
      · simpa [writeCell, hu] using cellsWf_mono (a + 1) lo rest h.2 (by omega)
      · simp only [writeCell, hu, Nat.lt_irrefl, if_true, if_false, cellsWf, Bool.and_eq_true, decide_eq_true_eq]
        exact ⟨⟨⟨hlo, ha⟩, hu⟩, h.2⟩
    · have h1 : ¬ a < d := by omega
      have h2 : ¬ a = d := by omega
      simp only [writeCell, h1, h2, if_false, cellsWf, Bool.and_eq_true, decide_eq_true_eq]
      exact ⟨h.1, ih (d + 1) h.2 (by omega)⟩

/-! ## One byte -/

theorem Memory.wf_blank (k : Nat) : (blankMemory k).wf = true := rfl

@[simp] theorem Memory.write_fill (m : Memory) (a : Nat) (v : Byte) : (m.write a v).fill = m.fill := rfl

theorem Memory.wf_write (m : Memory) (a : Nat) (v : Byte) (h : m.wf = true) (ha : a < memSize) :
    (m.write a v).wf = true :=
  cellsWf_writeCell 0 a v m.cells h (Nat.zero_le a) ha

theorem Memory.peek_write (m : Memory) (a b : Nat) (v : Byte) (h : m.wf = true) :
    (m.write a v).peek b = if b = a then some v else m.peek b :=
  lookupCell_writeCell 0 a b v m.cells h

/-- Read after write. -/
theorem Memory.read_write (m : Memory) (a b : Nat) (v : Byte) (h : m.wf = true) :
    (m.write a v).read b = if b = a then v else m.read b := by
  simp only [Memory.read, Memory.peek_write m a b v h, Memory.write_fill]
  split <;> rfl

/-! ## Several bytes -/

@[simp] theorem Memory.writeBytes_fill (m : Memory) (base : Nat) (bytes : List Byte) :
    (m.writeBytes base bytes).fill = m.fill := by
  induction bytes generalizing m base with
  | nil => rfl
  | cons v rest ih => simp [Memory.writeBytes, ih]

theorem Memory.wf_writeBytes (m : Memory) (base : Nat) (bytes : List Byte) (h : m.wf = true)
    (hb : base + bytes.length ≤ memSize) : (m.writeBytes base bytes).wf = true := by
  induction bytes generalizing m base with
  | nil => exact h
  | cons v rest ih =>
    simp only [List.length_cons] at hb
    exact ih _ _ (m.wf_write base v h (by omega)) (by omega)

/-- What is read after several bytes were written: the byte written there, or what was there before. -/
theorem Memory.read_writeBytes (m : Memory) (base : Nat) (bytes : List Byte) (a : Nat) (h : m.wf = true)
    (hb : base + bytes.length ≤ memSize) :
    (m.writeBytes base bytes).read a =
      if base ≤ a then (bytes[a - base]?).getD (m.read a) else m.read a := by
  induction bytes generalizing m base with
  | nil => simp [Memory.writeBytes]
  | cons v rest ih =>
    simp only [List.length_cons] at hb
    have hw := m.wf_write base v h (by omega)
    rw [Memory.writeBytes, ih _ _ hw (by omega), m.read_write base a v h]
    rcases Nat.lt_trichotomy a base with hlt | heq | hgt
    · simp [show ¬ base + 1 ≤ a by omega, show ¬ base ≤ a by omega, show ¬ a = base by omega]
    · subst heq
      simp
    · have hs : a - base = (a - (base + 1)) + 1 := by omega
      simp [show base + 1 ≤ a by omega, show base ≤ a by omega, show ¬ a = base by omega, hs]

/-- Outside the bytes written nothing changes. -/
theorem Memory.read_writeBytes_outside (m : Memory) (base : Nat) (bytes : List Byte) (a : Nat) (h : m.wf = true)
    (hb : base + bytes.length ≤ memSize) (ha : a < base ∨ base + bytes.length ≤ a) :
    (m.writeBytes base bytes).read a = m.read a := by
  rw [m.read_writeBytes base bytes a h hb]
  split
  · rw [List.getElem?_eq_none (by omega)]
    rfl
  · rfl

@[simp] theorem Memory.readBytes_length (m : Memory) (base count : Nat) :
    (m.readBytes base count).length = count := by simp [Memory.readBytes]

theorem Memory.readBytes_getElem? (m : Memory) (base count k : Nat) :
    (m.readBytes base count)[k]? = if k < count then some (m.read (base + k)) else none := by
  simp [Memory.readBytes, apply_ite]
  split <;> simp_all

/-! ## Reset -/

/-- Writing what an unlisted address is known to hold lists nothing. -/
theorem writeBytes_blank (k base : Nat) (bytes : List Byte)
    (h : ∀ (n : Nat) (hn : n < bytes.length), unlisted (base + n) = some bytes[n]) :
    (blankMemory k).writeBytes base bytes = blankMemory k := by
  induction bytes generalizing base with
  | nil => rfl
  | cons v rest ih =>
    have h0 : unlisted base = some v := h 0 (Nat.zero_lt_succ _)
    have hw : (blankMemory k).write base v = blankMemory k := by simp [blankMemory, Memory.write, writeCell, h0]
    rw [Memory.writeBytes, hw]
    refine ih (base + 1) fun n hn => ?_
    have hs := h (n + 1) (by simpa using hn)
    simpa [Nat.add_assoc, Nat.add_comm 1 n] using hs

/-- Writing the default font onto a blank memory lists nothing. -/
theorem writeBytes_blank_font (k : Nat) :
    (blankMemory k).writeBytes 0 defaultFont.toList = blankMemory k :=
  writeBytes_blank k 0 _ fun n hn => by
    have hn' : n < 80 := by simpa using hn
    simp [unlisted, hn']

theorem State.wf_resetMemory (s : State) (image : List Byte) (h : image.length ≤ maxProgram) :
    (s.resetMemory image).wf = true := by
  have hm : progBase + image.length ≤ memSize := by
    simp only [maxProgram, memSize, progBase] at *
    omega
  refine Memory.wf_writeBytes _ _ _ (Memory.wf_writeBytes _ _ _ (Memory.wf_blank _) ?_) hm
  simp [memSize]

theorem State.wf_reset : State.reset.mem.wf = true := rfl

end Sys2Proof.Machine
end

