-- ==== Sys2Proof/Laws/Ops.lean ====
section
/-! SUPPORT. What each shared operation can do, said once. -/

namespace Sys2Proof.Machine

/-! ## Registers -/

/-- A register read after a register write. -/
theorem State.reg_setReg (s : State) (x y : Reg) (b : Byte) :
    (s.setReg x b).reg y = if y = x then b else s.reg y := by
  simp only [State.reg, State.setReg, Vector.getElem_set, BitVec.toNat_inj, eq_comm]

@[simp] theorem State.reg_setReg_self (s : State) (x : Reg) (b : Byte) : (s.setReg x b).reg x = b := by
  simp [State.reg_setReg]

theorem State.reg_setReg_ne (s : State) (x y : Reg) (b : Byte) (h : y ≠ x) : (s.setReg x b).reg y = s.reg y := by
  simp [State.reg_setReg, h]

@[simp] theorem State.reg_setI (s : State) (a : Word) (x : Reg) : (s.setI a).reg x = s.reg x := rfl
@[simp] theorem State.reg_setPc (s : State) (a : Word) (x : Reg) : (s.setPc a).reg x = s.reg x := rfl
@[simp] theorem State.reg_setDt (s : State) (b : Byte) (x : Reg) : (s.setDt b).reg x = s.reg x := rfl
@[simp] theorem State.reg_setSt (s : State) (b : Byte) (x : Reg) : (s.setSt b).reg x = s.reg x := rfl
@[simp] theorem State.reg_setStack (s : State) (l : List Word) (x : Reg) : (s.setStack l).reg x = s.reg x := rfl
@[simp] theorem State.reg_push (s : State) (a : Word) (x : Reg) : (s.push a).reg x = s.reg x := rfl
@[simp] theorem State.reg_setMem (s : State) (m : Memory) (x : Reg) : (s.setMem m).reg x = s.reg x := rfl
@[simp] theorem State.reg_setFb (s : State) (f : Framebuffer) (x : Reg) : (s.setFb f).reg x = s.reg x := rfl
@[simp] theorem State.reg_setKeys (s : State) (k : Keypad) (x : Reg) : (s.setKeys k).reg x = s.reg x := rfl
@[simp] theorem State.reg_setOutcome (s : State) (o : StepOutcome) (x : Reg) : (s.setOutcome o).reg x = s.reg x := rfl
@[simp] theorem State.reg_drawn (s : State) (x : Reg) : s.drawn.reg x = s.reg x := rfl
@[simp] theorem State.reg_advance (s : State) (x : Reg) : s.advance.reg x = s.reg x := rfl
@[simp] theorem State.reg_enterFault (s : State) (r : FaultRecord) (x : Reg) : (s.enterFault r).reg x = s.reg x := rfl

/-! ## Outcomes and faults -/

@[simp] theorem State.done_eq_next (s t : State) (d : Bool) :
    s.done d = .next t ↔ t = s.setOutcome (.ok d) := by
  simp [State.done, eq_comm]

@[simp] theorem State.raise_eq_next (s t : State) (j : Instr) (e : FatalError) :
    s.raise j e = .next t ↔ t = s.enterFault ⟨e, s.pc0, some (encode j)⟩ := by
  simp [State.raise, eq_comm]

/-- All a checked instruction can do: raise the error of its check, or go on. -/
theorem State.checked_cases (s t : State) (j : Instr) (check : Option FatalError) (rest : Result)
    (h : s.checked j check rest = .next t) :
    (∃ e, check = some e ∧ t = s.enterFault ⟨e, s.pc0, some (encode j)⟩) ∨ (check = none ∧ rest = .next t) := by
  cases check with
  | some e => exact .inl ⟨e, rfl, by simpa [State.checked] using h⟩
  | none => exact .inr ⟨rfl, h⟩

/-- PC back to the instruction undoes the fetch's advance. -/
@[simp] theorem State.pc0_advance (s : State) : s.advance.pc0 = s.pc := by
  simp [State.pc0, State.advance]

/-! ## The range check -/

theorem State.rangeError_none (s : State) (kind : AccessKind) (base count : Nat) :
    s.rangeError kind base count = none ↔ count = 0 ∨ base + count ≤ s.params.memLimit.toNat := by
  simp only [State.rangeError]
  split
  · rename_i h
    simp
    omega
  · rename_i h
    simp
    omega

theorem State.rangeError_some (s : State) (kind : AccessKind) (base count : Nat) (e : FatalError) :
    s.rangeError kind base count = some e ↔
      (0 < count ∧ s.params.memLimit.toNat < base + count) ∧ e = .outOfBounds kind (max base s.params.memLimit.toNat) := by
  simp only [State.rangeError]
  split
  · rename_i h
    simp [h, eq_comm]
  · rename_i h
    simp [h]

theorem memLimit_le (l : MemLimit) : l.toNat ≤ memSize := by cases l <;> decide

theorem keyError_none (k : Byte) : keyError k = none ↔ k.toNat ≤ 15 := by
  simp only [keyError]
  split <;> simp <;> omega

theorem glyphError_none (d : Byte) : glyphError d = none ↔ d.toNat ≤ 15 := by
  simp only [glyphError]
  split <;> simp <;> omega

theorem keyError_some (k : Byte) (e : FatalError) :
    keyError k = some e ↔ 15 < k.toNat ∧ e = .outOfBounds .key k.toNat := by
  simp only [keyError]
  split <;> simp_all [eq_comm]

theorem glyphError_some (d : Byte) (e : FatalError) :
    glyphError d = some e ↔ 15 < d.toNat ∧ e = .outOfBounds .glyph d.toNat := by
  simp only [glyphError]
  split <;> simp_all [eq_comm]

theorem State.callError_none (s : State) : s.callError = none ↔ s.stack.length < s.params.stackDepth := by
  simp only [State.callError]
  split <;> simp <;> omega

theorem State.callError_some (s : State) (e : FatalError) :
    s.callError = some e ↔ s.params.stackDepth ≤ s.stack.length ∧ e = .stackOverflow := by
  simp only [State.callError]
  split <;> simp_all [eq_comm]

/-! ## A flag and a result -/

/-- All that writing a flag and a result can do (40 R131). -/
theorem State.writeFlagged_cases (s : State) (x : Reg) (flag result : Byte) :
    (x = regF ∧ s.params.vfDest = .anyValue ∧
      s.writeFlagged x flag result = (s.setReg regF (Config.vfAny s.draws)).drawn) ∨
    ((x ≠ regF ∨ s.params.vfDest = .resultWins) ∧
      s.writeFlagged x flag result = (s.setReg regF flag).setReg x result) := by
  unfold State.writeFlagged
  split
  · rename_i h
    exact .inl ⟨h.1, h.2, rfl⟩
  · rename_i h
    refine .inr ⟨?_, rfl⟩
    by_cases hx : x = regF
    · right
      cases hm : s.params.vfDest with
      | resultWins => rfl
      | anyValue => exact absurd ⟨hx, hm⟩ h
    · exact .inl hx

/-! A flag and a result change only registers, and in one mode the draw counter. -/

@[simp] theorem State.writeFlagged_i (s : State) (x : Reg) (flag result : Byte) :
    (s.writeFlagged x flag result).i = s.i := by
  obtain ⟨-, -, h⟩ | ⟨-, h⟩ := s.writeFlagged_cases x flag result <;> rw [h] <;> simp

@[simp] theorem State.writeFlagged_pc (s : State) (x : Reg) (flag result : Byte) :
    (s.writeFlagged x flag result).pc = s.pc := by
  obtain ⟨-, -, h⟩ | ⟨-, h⟩ := s.writeFlagged_cases x flag result <;> rw [h] <;> simp

@[simp] theorem State.writeFlagged_stack (s : State) (x : Reg) (flag result : Byte) :
    (s.writeFlagged x flag result).stack = s.stack := by
  obtain ⟨-, -, h⟩ | ⟨-, h⟩ := s.writeFlagged_cases x flag result <;> rw [h] <;> simp

@[simp] theorem State.writeFlagged_fb (s : State) (x : Reg) (flag result : Byte) :
    (s.writeFlagged x flag result).fb = s.fb := by
  obtain ⟨-, -, h⟩ | ⟨-, h⟩ := s.writeFlagged_cases x flag result <;> rw [h] <;> simp

@[simp] theorem State.writeFlagged_keys (s : State) (x : Reg) (flag result : Byte) :
    (s.writeFlagged x flag result).keys = s.keys := by
  obtain ⟨-, -, h⟩ | ⟨-, h⟩ := s.writeFlagged_cases x flag result <;> rw [h] <;> simp

@[simp] theorem State.writeFlagged_dt (s : State) (x : Reg) (flag result : Byte) :
    (s.writeFlagged x flag result).dt = s.dt := by
  obtain ⟨-, -, h⟩ | ⟨-, h⟩ := s.writeFlagged_cases x flag result <;> rw [h] <;> simp

@[simp] theorem State.writeFlagged_st (s : State) (x : Reg) (flag result : Byte) :
    (s.writeFlagged x flag result).st = s.st := by
  obtain ⟨-, -, h⟩ | ⟨-, h⟩ := s.writeFlagged_cases x flag result <;> rw [h] <;> simp

@[simp] theorem State.writeFlagged_status (s : State) (x : Reg) (flag result : Byte) :
    (s.writeFlagged x flag result).status = s.status := by
  obtain ⟨-, -, h⟩ | ⟨-, h⟩ := s.writeFlagged_cases x flag result <;> rw [h] <;> simp

@[simp] theorem State.writeFlagged_mem (s : State) (x : Reg) (flag result : Byte) :
    (s.writeFlagged x flag result).mem = s.mem := by
  obtain ⟨-, -, h⟩ | ⟨-, h⟩ := s.writeFlagged_cases x flag result <;> rw [h] <;> simp

@[simp] theorem State.writeFlagged_outcome (s : State) (x : Reg) (flag result : Byte) :
    (s.writeFlagged x flag result).outcome = s.outcome := by
  obtain ⟨-, -, h⟩ | ⟨-, h⟩ := s.writeFlagged_cases x flag result <;> rw [h] <;> simp

@[simp] theorem State.writeFlagged_params (s : State) (x : Reg) (flag result : Byte) :
    (s.writeFlagged x flag result).params = s.params := by
  obtain ⟨-, -, h⟩ | ⟨-, h⟩ := s.writeFlagged_cases x flag result <;> rw [h] <;> simp

/-! ## Loading registers -/

/-- Loading registers changes only `v`. -/
theorem State.loadRegsFrom_rest (s : State) (k : Nat) (bytes : List Byte) :
    s.loadRegsFrom k bytes = { s with v := (s.loadRegsFrom k bytes).v } := by
  induction bytes generalizing s k with
  | nil => rfl
  | cons b rest ih =>
    rw [State.loadRegsFrom, ih]
    rfl

@[simp] theorem State.loadRegsFrom_i (s : State) (k : Nat) (bytes : List Byte) :
    (s.loadRegsFrom k bytes).i = s.i := by rw [State.loadRegsFrom_rest]

@[simp] theorem State.loadRegsFrom_pc (s : State) (k : Nat) (bytes : List Byte) :
    (s.loadRegsFrom k bytes).pc = s.pc := by rw [State.loadRegsFrom_rest]

@[simp] theorem State.loadRegsFrom_stack (s : State) (k : Nat) (bytes : List Byte) :
    (s.loadRegsFrom k bytes).stack = s.stack := by rw [State.loadRegsFrom_rest]

@[simp] theorem State.loadRegsFrom_fb (s : State) (k : Nat) (bytes : List Byte) :
    (s.loadRegsFrom k bytes).fb = s.fb := by rw [State.loadRegsFrom_rest]

@[simp] theorem State.loadRegsFrom_keys (s : State) (k : Nat) (bytes : List Byte) :
    (s.loadRegsFrom k bytes).keys = s.keys := by rw [State.loadRegsFrom_rest]

@[simp] theorem State.loadRegsFrom_dt (s : State) (k : Nat) (bytes : List Byte) :
    (s.loadRegsFrom k bytes).dt = s.dt := by rw [State.loadRegsFrom_rest]

@[simp] theorem State.loadRegsFrom_st (s : State) (k : Nat) (bytes : List Byte) :
    (s.loadRegsFrom k bytes).st = s.st := by rw [State.loadRegsFrom_rest]

@[simp] theorem State.loadRegsFrom_status (s : State) (k : Nat) (bytes : List Byte) :
    (s.loadRegsFrom k bytes).status = s.status := by rw [State.loadRegsFrom_rest]

@[simp] theorem State.loadRegsFrom_mem (s : State) (k : Nat) (bytes : List Byte) :
    (s.loadRegsFrom k bytes).mem = s.mem := by rw [State.loadRegsFrom_rest]

@[simp] theorem State.loadRegsFrom_outcome (s : State) (k : Nat) (bytes : List Byte) :
    (s.loadRegsFrom k bytes).outcome = s.outcome := by rw [State.loadRegsFrom_rest]

@[simp] theorem State.loadRegsFrom_params (s : State) (k : Nat) (bytes : List Byte) :
    (s.loadRegsFrom k bytes).params = s.params := by rw [State.loadRegsFrom_rest]

@[simp] theorem State.loadRegsFrom_draws (s : State) (k : Nat) (bytes : List Byte) :
    (s.loadRegsFrom k bytes).draws = s.draws := by rw [State.loadRegsFrom_rest]

/-- What a register holds after consecutive registers were loaded. -/
theorem State.reg_loadRegsFrom (s : State) (k : Nat) (bytes : List Byte) (r : Reg) (h : k + bytes.length ≤ 16) :
    (s.loadRegsFrom k bytes).reg r =
      if k ≤ r.toNat then (bytes[r.toNat - k]?).getD (s.reg r) else s.reg r := by
  induction bytes generalizing s k with
  | nil => simp [State.loadRegsFrom]
  | cons b rest ih =>
    simp only [List.length_cons] at h
    rw [State.loadRegsFrom, ih _ _ (by omega), State.reg_setReg]
    have hr : r = BitVec.ofNat 4 k ↔ r.toNat = k := by
      rw [← BitVec.toNat_inj, BitVec.toNat_ofNat, Nat.mod_eq_of_lt (by omega)]
    rcases Nat.lt_trichotomy r.toNat k with hlt | heq | hgt
    · simp [hr, show ¬ k + 1 ≤ r.toNat by omega, show ¬ k ≤ r.toNat by omega, show ¬ r.toNat = k by omega]
    · simp [hr, heq]
    · have hs : r.toNat - k = (r.toNat - (k + 1)) + 1 := by omega
      simp [hr, show k + 1 ≤ r.toNat by omega, show k ≤ r.toNat by omega, show ¬ r.toNat = k by omega, hs]

@[simp] theorem State.regsUpTo_length (s : State) (x : Reg) : (s.regsUpTo x).length = regCount x := by
  simp [State.regsUpTo]

theorem regCount_le (x : Reg) : regCount x ≤ 16 := by
  have := x.isLt
  simp only [regCount]
  omega

/-! ## Pixels -/

/-- A pixel after another was flipped. -/
theorem pixelOf_flipPixel (f : Framebuffer) (px qx : Fin 64) (py qy : Fin 32) :
    pixelOf (flipPixel f px py) qx qy = ((pixelOf f qx qy) ^^ decide (qx = px ∧ qy = py)) := by
  by_cases hy : qy = py
  · subst hy
    simp [pixelOf, flipPixel, Fin.ext_iff, eq_comm]
  · have hy' : ¬ py.val = qy.val := fun h => hy (Fin.ext h.symm)
    simp [pixelOf, flipPixel, hy', hy]

theorem pixelOf_clearFb (px : Fin 64) (py : Fin 32) : pixelOf clearFb px py = false := by
  simp [pixelOf, clearFb]

/-! ## The rest of a skip -/

theorem State.skipIf_pc (s : State) (c : Bool) : (s.skipIf c).pc = if c then s.pc + 2 else s.pc := by
  cases c <;> rfl

theorem State.skipIf_eq (s : State) (c : Bool) : s.skipIf c = s.setPc (s.skipIf c).pc := by
  cases c <;> rfl

theorem State.reg_skipIf (s : State) (c : Bool) (x : Reg) : (s.skipIf c).reg x = s.reg x := by cases c <;> rfl

@[simp] theorem State.skipIf_v (s : State) (c : Bool) : (s.skipIf c).v = s.v := by cases c <;> rfl
@[simp] theorem State.skipIf_i (s : State) (c : Bool) : (s.skipIf c).i = s.i := by cases c <;> rfl
@[simp] theorem State.skipIf_stack (s : State) (c : Bool) : (s.skipIf c).stack = s.stack := by cases c <;> rfl
@[simp] theorem State.skipIf_fb (s : State) (c : Bool) : (s.skipIf c).fb = s.fb := by cases c <;> rfl
@[simp] theorem State.skipIf_keys (s : State) (c : Bool) : (s.skipIf c).keys = s.keys := by cases c <;> rfl
@[simp] theorem State.skipIf_dt (s : State) (c : Bool) : (s.skipIf c).dt = s.dt := by cases c <;> rfl
@[simp] theorem State.skipIf_st (s : State) (c : Bool) : (s.skipIf c).st = s.st := by cases c <;> rfl
@[simp] theorem State.skipIf_status (s : State) (c : Bool) : (s.skipIf c).status = s.status := by cases c <;> rfl
@[simp] theorem State.skipIf_mem (s : State) (c : Bool) : (s.skipIf c).mem = s.mem := by cases c <;> rfl
@[simp] theorem State.skipIf_outcome (s : State) (c : Bool) : (s.skipIf c).outcome = s.outcome := by cases c <;> rfl
@[simp] theorem State.skipIf_params (s : State) (c : Bool) : (s.skipIf c).params = s.params := by cases c <;> rfl
@[simp] theorem State.skipIf_draws (s : State) (c : Bool) : (s.skipIf c).draws = s.draws := by cases c <;> rfl

/-! ## Keys -/

/-- A key is pressed exactly when its Boolean is true. -/
theorem State.mem_pressed (s : State) (k : Nat) : k ∈ s.pressed ↔ ∃ h : k < 16, s.keys[k] = true := by
  simp only [State.pressed, State.key, List.mem_filter, List.mem_range]
  constructor
  · rintro ⟨h, hk⟩
    exact ⟨h, by simpa [h] using hk⟩
  · rintro ⟨h, hk⟩
    exact ⟨h, by simpa [h] using hk⟩

/-- The pressed keys rise. -/
theorem State.pressed_sorted (s : State) : s.pressed.Pairwise (· < ·) :=
  List.Pairwise.filter _ List.pairwise_lt_range

/-- A wait-key stores a pressed key (44 R223). -/
theorem selectKey_mem (mode : KeySelect) (pick k : Nat) (rest : List Nat) :
    selectKey mode pick k rest ∈ k :: rest := by
  cases mode with
  | lowest => simp [selectKey]
  | any =>
    have h : pick % (rest.length + 1) < (k :: rest).length := Nat.mod_lt _ (by simp)
    simp only [selectKey, List.getElem?_eq_getElem h, Option.getD_some]
    exact List.getElem_mem h

/-! The key draw changes only the draw counter. -/

@[simp] theorem State.keyDrawn_v (s : State) : s.keyDrawn.v = s.v := by
  unfold State.keyDrawn
  split <;> rfl

@[simp] theorem State.keyDrawn_i (s : State) : s.keyDrawn.i = s.i := by
  unfold State.keyDrawn
  split <;> rfl

@[simp] theorem State.keyDrawn_pc (s : State) : s.keyDrawn.pc = s.pc := by
  unfold State.keyDrawn
  split <;> rfl

@[simp] theorem State.keyDrawn_stack (s : State) : s.keyDrawn.stack = s.stack := by
  unfold State.keyDrawn
  split <;> rfl

@[simp] theorem State.keyDrawn_fb (s : State) : s.keyDrawn.fb = s.fb := by
  unfold State.keyDrawn
  split <;> rfl

@[simp] theorem State.keyDrawn_keys (s : State) : s.keyDrawn.keys = s.keys := by
  unfold State.keyDrawn
  split <;> rfl

@[simp] theorem State.keyDrawn_dt (s : State) : s.keyDrawn.dt = s.dt := by
  unfold State.keyDrawn
  split <;> rfl

@[simp] theorem State.keyDrawn_st (s : State) : s.keyDrawn.st = s.st := by
  unfold State.keyDrawn
  split <;> rfl

@[simp] theorem State.keyDrawn_status (s : State) : s.keyDrawn.status = s.status := by
  unfold State.keyDrawn
  split <;> rfl

@[simp] theorem State.keyDrawn_mem (s : State) : s.keyDrawn.mem = s.mem := by
  unfold State.keyDrawn
  split <;> rfl

@[simp] theorem State.keyDrawn_outcome (s : State) : s.keyDrawn.outcome = s.outcome := by
  unfold State.keyDrawn
  split <;> rfl

@[simp] theorem State.keyDrawn_params (s : State) : s.keyDrawn.params = s.params := by
  unfold State.keyDrawn
  split <;> rfl

end Sys2Proof.Machine
end

