-- ==== Sys2Proof/Laws/PerInstr.lean ====
section
/-! SUPPORT. Statements for all instructions, one lemma per constructor. Family `EncodedRow`: the word of an instruction
matches a row of the decode map (30_encoding.md R100), and that row's operands, read off the word, are the
instruction's own. -/

namespace Sys2Proof.Laws.EncodedRow

/-- The instruction's word matches a row of R100 that reads the instruction back. -/
def Statement (j : Instr) : Prop :=
  ∃ r ∈ tableRows, rowMatches (encode j) r = true ∧ r.build (fieldsOf (encode j)) = j

/-- A row of the table, by its number, is in the table. -/
theorem mem_tableRows (k : Nat) (h : k < tableRows.length) : tableRows[k] ∈ tableRows := List.getElem_mem h

theorem clearScreen : Statement .clearScreen := by
  exact ⟨_, mem_tableRows 0 (by decide), by decide, rfl⟩

theorem ret : Statement .ret := by
  exact ⟨_, mem_tableRows 1 (by decide), by decide, rfl⟩

theorem jump (nnn : Addr) : Statement (.jump nnn) := by
  have h := fieldsOf_FA 0x1 nnn
  refine ⟨_, mem_tableRows 2 (by decide), ?_, ?_⟩
  · refine decide_eq_true ((and_F000 _).trans ?_)
    rw [encode, h.1]
    rfl
  · exact congrArg Instr.jump h.2

theorem call (nnn : Addr) : Statement (.call nnn) := by
  have h := fieldsOf_FA 0x2 nnn
  refine ⟨_, mem_tableRows 3 (by decide), ?_, ?_⟩
  · refine decide_eq_true ((and_F000 _).trans ?_)
    rw [encode, h.1]
    rfl
  · exact congrArg Instr.call h.2

theorem skipEqImm (x : Reg) (nn : Byte) : Statement (.skipEqImm x nn) := by
  have h := fieldsOf_FXK 0x3 x nn
  refine ⟨_, mem_tableRows 4 (by decide), ?_, ?_⟩
  · refine decide_eq_true ((and_F000 _).trans ?_)
    rw [encode, h.1]
    rfl
  · exact congrArg₂ Instr.skipEqImm h.2.1 h.2.2

theorem skipNeqImm (x : Reg) (nn : Byte) : Statement (.skipNeqImm x nn) := by
  have h := fieldsOf_FXK 0x4 x nn
  refine ⟨_, mem_tableRows 5 (by decide), ?_, ?_⟩
  · refine decide_eq_true ((and_F000 _).trans ?_)
    rw [encode, h.1]
    rfl
  · exact congrArg₂ Instr.skipNeqImm h.2.1 h.2.2

theorem skipEqReg (x : Reg) (y : Reg) (n : Nibble) : Statement (.skipEqReg x y n) := by
  have h := fieldsOf_FXYN 0x5 x y n
  refine ⟨_, mem_tableRows 6 (by decide), ?_, ?_⟩
  · refine decide_eq_true ((and_F000 _).trans ?_)
    rw [encode, h.1]
    rfl
  · show Instr.skipEqReg _ _ _ = _
    rw [encode, h.2.1, h.2.2.1, h.2.2.2]

theorem skipNeqReg (x : Reg) (y : Reg) (n : Nibble) : Statement (.skipNeqReg x y n) := by
  have h := fieldsOf_FXYN 0x9 x y n
  refine ⟨_, mem_tableRows 7 (by decide), ?_, ?_⟩
  · refine decide_eq_true ((and_F000 _).trans ?_)
    rw [encode, h.1]
    rfl
  · show Instr.skipNeqReg _ _ _ = _
    rw [encode, h.2.1, h.2.2.1, h.2.2.2]

theorem setImm (x : Reg) (nn : Byte) : Statement (.setImm x nn) := by
  have h := fieldsOf_FXK 0x6 x nn
  refine ⟨_, mem_tableRows 8 (by decide), ?_, ?_⟩
  · refine decide_eq_true ((and_F000 _).trans ?_)
    rw [encode, h.1]
    rfl
  · exact congrArg₂ Instr.setImm h.2.1 h.2.2

theorem addImm (x : Reg) (nn : Byte) : Statement (.addImm x nn) := by
  have h := fieldsOf_FXK 0x7 x nn
  refine ⟨_, mem_tableRows 9 (by decide), ?_, ?_⟩
  · refine decide_eq_true ((and_F000 _).trans ?_)
    rw [encode, h.1]
    rfl
  · exact congrArg₂ Instr.addImm h.2.1 h.2.2

theorem setReg (x : Reg) (y : Reg) : Statement (.setReg x y) := by
  have h := fieldsOf_FXYN 0x8 x y 0x0
  refine ⟨_, mem_tableRows 10 (by decide), ?_, ?_⟩
  · refine decide_eq_true ((and_F00F _).trans ?_)
    rw [encode, h.1, h.2.2.2]
    rfl
  · exact congrArg₂ Instr.setReg h.2.1 h.2.2.1

theorem orReg (x : Reg) (y : Reg) : Statement (.orReg x y) := by
  have h := fieldsOf_FXYN 0x8 x y 0x1
  refine ⟨_, mem_tableRows 11 (by decide), ?_, ?_⟩
  · refine decide_eq_true ((and_F00F _).trans ?_)
    rw [encode, h.1, h.2.2.2]
    rfl
  · exact congrArg₂ Instr.orReg h.2.1 h.2.2.1

theorem andReg (x : Reg) (y : Reg) : Statement (.andReg x y) := by
  have h := fieldsOf_FXYN 0x8 x y 0x2
  refine ⟨_, mem_tableRows 12 (by decide), ?_, ?_⟩
  · refine decide_eq_true ((and_F00F _).trans ?_)
    rw [encode, h.1, h.2.2.2]
    rfl
  · exact congrArg₂ Instr.andReg h.2.1 h.2.2.1

theorem xorReg (x : Reg) (y : Reg) : Statement (.xorReg x y) := by
  have h := fieldsOf_FXYN 0x8 x y 0x3
  refine ⟨_, mem_tableRows 13 (by decide), ?_, ?_⟩
  · refine decide_eq_true ((and_F00F _).trans ?_)
    rw [encode, h.1, h.2.2.2]
    rfl
  · exact congrArg₂ Instr.xorReg h.2.1 h.2.2.1

theorem addReg (x : Reg) (y : Reg) : Statement (.addReg x y) := by
  have h := fieldsOf_FXYN 0x8 x y 0x4
  refine ⟨_, mem_tableRows 14 (by decide), ?_, ?_⟩
  · refine decide_eq_true ((and_F00F _).trans ?_)
    rw [encode, h.1, h.2.2.2]
    rfl
  · exact congrArg₂ Instr.addReg h.2.1 h.2.2.1

theorem subReg (x : Reg) (y : Reg) : Statement (.subReg x y) := by
  have h := fieldsOf_FXYN 0x8 x y 0x5
  refine ⟨_, mem_tableRows 15 (by decide), ?_, ?_⟩
  · refine decide_eq_true ((and_F00F _).trans ?_)
    rw [encode, h.1, h.2.2.2]
    rfl
  · exact congrArg₂ Instr.subReg h.2.1 h.2.2.1

theorem shiftRight (x : Reg) (y : Reg) : Statement (.shiftRight x y) := by
  have h := fieldsOf_FXYN 0x8 x y 0x6
  refine ⟨_, mem_tableRows 16 (by decide), ?_, ?_⟩
  · refine decide_eq_true ((and_F00F _).trans ?_)
    rw [encode, h.1, h.2.2.2]
    rfl
  · exact congrArg₂ Instr.shiftRight h.2.1 h.2.2.1

theorem subnReg (x : Reg) (y : Reg) : Statement (.subnReg x y) := by
  have h := fieldsOf_FXYN 0x8 x y 0x7
  refine ⟨_, mem_tableRows 17 (by decide), ?_, ?_⟩
  · refine decide_eq_true ((and_F00F _).trans ?_)
    rw [encode, h.1, h.2.2.2]
    rfl
  · exact congrArg₂ Instr.subnReg h.2.1 h.2.2.1

theorem shiftLeft (x : Reg) (y : Reg) : Statement (.shiftLeft x y) := by
  have h := fieldsOf_FXYN 0x8 x y 0xE
  refine ⟨_, mem_tableRows 18 (by decide), ?_, ?_⟩
  · refine decide_eq_true ((and_F00F _).trans ?_)
    rw [encode, h.1, h.2.2.2]
    rfl
  · exact congrArg₂ Instr.shiftLeft h.2.1 h.2.2.1

theorem setI (nnn : Addr) : Statement (.setI nnn) := by
  have h := fieldsOf_FA 0xA nnn
  refine ⟨_, mem_tableRows 19 (by decide), ?_, ?_⟩
  · refine decide_eq_true ((and_F000 _).trans ?_)
    rw [encode, h.1]
    rfl
  · exact congrArg Instr.setI h.2

theorem jumpV0 (nnn : Addr) : Statement (.jumpV0 nnn) := by
  have h := fieldsOf_FA 0xB nnn
  refine ⟨_, mem_tableRows 20 (by decide), ?_, ?_⟩
  · refine decide_eq_true ((and_F000 _).trans ?_)
    rw [encode, h.1]
    rfl
  · exact congrArg Instr.jumpV0 h.2

theorem random (x : Reg) (nn : Byte) : Statement (.random x nn) := by
  have h := fieldsOf_FXK 0xC x nn
  refine ⟨_, mem_tableRows 21 (by decide), ?_, ?_⟩
  · refine decide_eq_true ((and_F000 _).trans ?_)
    rw [encode, h.1]
    rfl
  · exact congrArg₂ Instr.random h.2.1 h.2.2

theorem draw (x : Reg) (y : Reg) (n : Nibble) : Statement (.draw x y n) := by
  have h := fieldsOf_FXYN 0xD x y n
  refine ⟨_, mem_tableRows 22 (by decide), ?_, ?_⟩
  · refine decide_eq_true ((and_F000 _).trans ?_)
    rw [encode, h.1]
    rfl
  · show Instr.draw _ _ _ = _
    rw [encode, h.2.1, h.2.2.1, h.2.2.2]

theorem skipIfKey (x : Reg) : Statement (.skipIfKey x) := by
  have h := fieldsOf_FXK 0xE x 0x9E
  refine ⟨_, mem_tableRows 23 (by decide), ?_, ?_⟩
  · refine decide_eq_true ((and_F0FF _).trans ?_)
    rw [encode, h.1, h.2.2]
    rfl
  · exact congrArg Instr.skipIfKey h.2.1

theorem skipIfNotKey (x : Reg) : Statement (.skipIfNotKey x) := by
  have h := fieldsOf_FXK 0xE x 0xA1
  refine ⟨_, mem_tableRows 24 (by decide), ?_, ?_⟩
  · refine decide_eq_true ((and_F0FF _).trans ?_)
    rw [encode, h.1, h.2.2]
    rfl
  · exact congrArg Instr.skipIfNotKey h.2.1

theorem getDelay (x : Reg) : Statement (.getDelay x) := by
  have h := fieldsOf_FXK 0xF x 0x07
  refine ⟨_, mem_tableRows 25 (by decide), ?_, ?_⟩
  · refine decide_eq_true ((and_F0FF _).trans ?_)
    rw [encode, h.1, h.2.2]
    rfl
  · exact congrArg Instr.getDelay h.2.1

theorem waitKey (x : Reg) : Statement (.waitKey x) := by
  have h := fieldsOf_FXK 0xF x 0x0A
  refine ⟨_, mem_tableRows 26 (by decide), ?_, ?_⟩
  · refine decide_eq_true ((and_F0FF _).trans ?_)
    rw [encode, h.1, h.2.2]
    rfl
  · exact congrArg Instr.waitKey h.2.1

theorem setDelay (x : Reg) : Statement (.setDelay x) := by
  have h := fieldsOf_FXK 0xF x 0x15
  refine ⟨_, mem_tableRows 27 (by decide), ?_, ?_⟩
  · refine decide_eq_true ((and_F0FF _).trans ?_)
    rw [encode, h.1, h.2.2]
    rfl
  · exact congrArg Instr.setDelay h.2.1

theorem setSound (x : Reg) : Statement (.setSound x) := by
  have h := fieldsOf_FXK 0xF x 0x18
  refine ⟨_, mem_tableRows 28 (by decide), ?_, ?_⟩
  · refine decide_eq_true ((and_F0FF _).trans ?_)
    rw [encode, h.1, h.2.2]
    rfl
  · exact congrArg Instr.setSound h.2.1

theorem addI (x : Reg) : Statement (.addI x) := by
  have h := fieldsOf_FXK 0xF x 0x1E
  refine ⟨_, mem_tableRows 29 (by decide), ?_, ?_⟩
  · refine decide_eq_true ((and_F0FF _).trans ?_)
    rw [encode, h.1, h.2.2]
    rfl
  · exact congrArg Instr.addI h.2.1

theorem setIToGlyph (x : Reg) : Statement (.setIToGlyph x) := by
  have h := fieldsOf_FXK 0xF x 0x29
  refine ⟨_, mem_tableRows 30 (by decide), ?_, ?_⟩
  · refine decide_eq_true ((and_F0FF _).trans ?_)
    rw [encode, h.1, h.2.2]
    rfl
  · exact congrArg Instr.setIToGlyph h.2.1

theorem storeBcd (x : Reg) : Statement (.storeBcd x) := by
  have h := fieldsOf_FXK 0xF x 0x33
  refine ⟨_, mem_tableRows 31 (by decide), ?_, ?_⟩
  · refine decide_eq_true ((and_F0FF _).trans ?_)
    rw [encode, h.1, h.2.2]
    rfl
  · exact congrArg Instr.storeBcd h.2.1

theorem dumpRegs (x : Reg) : Statement (.dumpRegs x) := by
  have h := fieldsOf_FXK 0xF x 0x55
  refine ⟨_, mem_tableRows 32 (by decide), ?_, ?_⟩
  · refine decide_eq_true ((and_F0FF _).trans ?_)
    rw [encode, h.1, h.2.2]
    rfl
  · exact congrArg Instr.dumpRegs h.2.1

theorem loadRegs (x : Reg) : Statement (.loadRegs x) := by
  have h := fieldsOf_FXK 0xF x 0x65
  refine ⟨_, mem_tableRows 33 (by decide), ?_, ?_⟩
  · refine decide_eq_true ((and_F0FF _).trans ?_)
    rw [encode, h.1, h.2.2]
    rfl
  · exact congrArg Instr.loadRegs h.2.1

end Sys2Proof.Laws.EncodedRow
end

