-- ==== Sys2Proof/Laws/Sprite.lean ====
section
/-! SUPPORT. The blitter as a list of pixels: which pixels a sprite flips, in order, and what flipping a list of distinct
pixels does (43_sprite_draw.md R201 to R206). -/

namespace Sys2Proof.Machine

/-! ## Flipping a list of pixels -/

/-- One pixel after one was flipped. -/
theorem pixelOf_blitPixel (b : Blit) (o : Option (Fin 64 × Fin 32)) (px : Fin 64) (py : Fin 32) :
    pixelOf (blitPixel b o).fb px py = (pixelOf b.fb px py ^^ decide (o = some (px, py))) := by
  cases o with
  | none => simp [blitPixel]
  | some p =>
    obtain ⟨qx, qy⟩ := p
    simp [blitPixel, pixelOf_flipPixel, eq_comm]

/-- The pixels of a list flipped in order. -/
def blitList (b : Blit) (l : List (Fin 64 × Fin 32)) : Blit := l.foldl (fun acc p => blitPixel acc (some p)) b

/-- What flipping distinct pixels does: each is XORed with 1, and a pixel was turned off exactly when one of them was
on. -/
theorem blitList_spec (l : List (Fin 64 × Fin 32)) (hn : l.Nodup) (b : Blit) :
    (∀ px py, pixelOf (blitList b l).fb px py = (pixelOf b.fb px py ^^ decide ((px, py) ∈ l))) ∧
    ((blitList b l).turnedOff = true ↔
      b.turnedOff = true ∨ ∃ px py, pixelOf b.fb px py = true ∧ (px, py) ∈ l) := by
  induction l generalizing b with
  | nil => simp [blitList]
  | cons p l ih =>
    obtain ⟨qx, qy⟩ := p
    obtain ⟨hq, hl⟩ := List.nodup_cons.1 hn
    obtain ⟨i1, i2⟩ := ih hl (blitPixel b (some (qx, qy)))
    have hne : ∀ px py, (px, py) ∈ l → ¬ some (qx, qy) = some (px, py) := by
      intro px py hp he
      cases he
      exact hq hp
    constructor
    · intro px py
      change pixelOf (blitList (blitPixel b (some (qx, qy))) l).fb px py = _
      rw [i1, pixelOf_blitPixel]
      by_cases h : (px, py) = (qx, qy)
      · have hp : (px, py) ∉ l := by rwa [h]
        rw [h] at hp ⊢
        simp [hp]
      · have h' : ¬ some (qx, qy) = some (px, py) := fun he => h (Option.some.inj he).symm
        simp only [h', List.mem_cons, h, false_or]
        simp
    · change (blitList (blitPixel b (some (qx, qy))) l).turnedOff = true ↔ _
      rw [i2]
      simp only [pixelOf_blitPixel]
      simp only [blitPixel, Bool.or_eq_true, List.mem_cons]
      constructor
      · rintro ((h | h) | ⟨px, py, h1, h2⟩)
        · exact .inl h
        · exact .inr ⟨qx, qy, h, .inl rfl⟩
        · simp only [hne px py h2, decide_false, Bool.xor_false] at h1
          exact .inr ⟨px, py, h1, .inr h2⟩
      · rintro (h | ⟨px, py, h1, h2 | h2⟩)
        · exact .inl (.inl h)
        · cases h2
          exact .inl (.inr h1)
        · refine .inr ⟨px, py, ?_, h2⟩
          simp only [hne px py h2, decide_false, Bool.xor_false, h1]

/-! ## The pixels of a sprite -/

/-- The pixels that one row flips, in order. -/
def rowPixels (mode : DrawEdgeMode) (xs ys : Byte) (r : Nat) (row : Byte) : List (Fin 64 × Fin 32) :=
  (List.range 8).filterMap fun c => if spriteBit row c then placePixel mode xs ys c r else none

/-- The pixels that the rows from row `r` on flip, in order. -/
def rowsPixels (mode : DrawEdgeMode) (xs ys : Byte) : Nat → List Byte → List (Fin 64 × Fin 32)
  | _, [] => []
  | r, row :: rest => rowPixels mode xs ys r row ++ rowsPixels mode xs ys (r + 1) rest

theorem blitRow_eq (mode : DrawEdgeMode) (xs ys : Byte) (r : Nat) (row : Byte) (b : Blit) :
    blitRow mode xs ys r row b = blitList b (rowPixels mode xs ys r row) := by
  unfold blitRow rowPixels
  generalize List.range 8 = l
  induction l generalizing b with
  | nil => rfl
  | cons c l ih =>
    rw [List.foldl_cons, ih, List.filterMap_cons]
    by_cases h : spriteBit row c
    · simp only [h, if_true]
      cases placePixel mode xs ys c r <;> rfl
    · simp only [h, if_false, Bool.false_eq_true]

/-- The blitter flips the sprite's pixels in order. -/
theorem blitRows_eq (mode : DrawEdgeMode) (xs ys : Byte) (rows : List Byte) (r : Nat) (b : Blit) :
    blitRows mode xs ys r rows b = blitList b (rowsPixels mode xs ys r rows) := by
  induction rows generalizing r b with
  | nil => rfl
  | cons row rest ih =>
    rw [blitRows, ih, rowsPixels, blitRow_eq]
    simp only [blitList, List.foldl_append]

theorem mem_rowPixels (mode : DrawEdgeMode) (xs ys : Byte) (r : Nat) (row : Byte) (p : Fin 64 × Fin 32) :
    p ∈ rowPixels mode xs ys r row ↔ ∃ c, c < 8 ∧ spriteBit row c = true ∧ placePixel mode xs ys c r = some p := by
  simp only [rowPixels, List.mem_filterMap, List.mem_range]
  constructor
  · rintro ⟨c, hc, h⟩
    split at h
    · exact ⟨c, hc, by assumption, h⟩
    · cases h
  · rintro ⟨c, hc, hs, h⟩
    exact ⟨c, hc, by simp [hs, h]⟩

/-- A pixel is flipped exactly when a set sprite bit lands on it. -/
theorem mem_rowsPixels (mode : DrawEdgeMode) (xs ys : Byte) (rows : List Byte) (r : Nat) (p : Fin 64 × Fin 32) :
    p ∈ rowsPixels mode xs ys r rows ↔
      ∃ k c, ∃ h : k < rows.length, c < 8 ∧ spriteBit rows[k] c = true ∧ placePixel mode xs ys c (r + k) = some p := by
  induction rows generalizing r with
  | nil => simp [rowsPixels]
  | cons row rest ih =>
    rw [rowsPixels, List.mem_append, ih, mem_rowPixels]
    constructor
    · rintro (⟨c, hc, hs, h⟩ | ⟨k, c, h1, h2, h3, h4⟩)
      · exact ⟨0, c, by simp, hc, by simpa, by simpa using h⟩
      · refine ⟨k + 1, c, by simp only [List.length_cons]; omega, h2, by simpa, ?_⟩
        rw [← h4]
        congr 1
        omega
    · rintro ⟨k, c, h1, h2, h3, h4⟩
      cases k with
      | zero => exact .inl ⟨c, h2, by simpa using h3, by simpa using h4⟩
      | succ k =>
        refine .inr ⟨k, c, by simpa using h1, h2, by simpa using h3, ?_⟩
        rw [← h4]
        congr 1
        omega

/-- The pixels of a draw, as `SpriteCovers` names them. -/
theorem spriteCovers_iff (s : State) (x y : Reg) (n : Nibble) (px : Fin 64) (py : Fin 32) :
    SpriteCovers s x y n px py ↔
      (px, py) ∈ rowsPixels s.params.drawEdge (s.reg x) (s.reg y) 0 (s.mem.readBytes s.base n.toNat) := by
  rw [mem_rowsPixels]
  unfold SpriteCovers
  refine exists_congr fun k => exists_congr fun c => ?_
  constructor
  · rintro ⟨h1, h2, h3, h4⟩
    refine ⟨by simpa using h1, h2, by simpa [Memory.readBytes, spriteBit] using h3, ?_⟩
    cases hm : s.params.drawEdge <;> simp only [hm] at h4 <;> simp [placePixel, Fin.ext_iff, h4]
    refine ⟨?_, ?_⟩ <;> omega
  · rintro ⟨h1, h2, h3, h4⟩
    refine ⟨by simpa using h1, h2, by simpa [Memory.readBytes, spriteBit] using h3, ?_⟩
    cases hm : s.params.drawEdge <;> simp [hm, placePixel, Fin.ext_iff] at h4 ⊢
    · exact ⟨h4.1.symm, h4.2.symm⟩
    · exact ⟨h4.1.symm, h4.2.2.symm⟩

end Sys2Proof.Machine
end

