-- ==== Sys2Proof/Laws/Step.lean ====
section
/-! SUPPORT. All that a step can do, said once, and the small lemmas of the frame predicates. -/

namespace Sys2Proof.Machine

/-! ## The fetch -/

theorem State.fetchable_iff (s : State) : fetchable s.params.memLimit s.pc = true ↔ s.fetchOk := by
  simp [fetchable, and_assoc]

theorem State.fetch_of_fetchOk (s : State) (h : s.fetchOk) : s.fetch = .ok s.wordAtPc := by
  simp [State.fetch, s.fetchable_iff.mpr h]

theorem State.fetch_of_not_fetchOk (s : State) (h : ¬ s.fetchOk) :
    s.fetch = .error (.outOfBounds .fetch s.pc.toNat) := by
  have hf : ¬ fetchable s.params.memLimit s.pc = true := fun hf => h (s.fetchable_iff.mp hf)
  simp [State.fetch, hf]

/-! ## The step -/

theorem step_faulted (s : State) (r : FaultRecord) (h : s.status = .faulted r) :
    step s = .next (s.setOutcome (.fault r)) := by
  simp [step, h, State.stuck]

theorem step_not_fetchOk (s : State) (h : s.status = .running) (hf : ¬ s.fetchOk) :
    step s = .next (s.enterFault ⟨.outOfBounds .fetch s.pc.toNat, s.pc, none⟩) := by
  simp [step, h, s.fetch_of_not_fetchOk hf, State.raiseFetch]

theorem step_invalid (s : State) (e : DecodeError) (h : s.status = .running) (hf : s.fetchOk)
    (hd : decodeWord s.wordAtPc = .error e) : step s = s.advance.invalidOpcode s.wordAtPc := by
  simp [step, h, s.fetch_of_fetchOk hf, hd]

theorem step_exec (s : State) (j : Instr) (h : s.status = .running) (hf : s.fetchOk)
    (hd : decodeWord s.wordAtPc = .ok j) : step s = exec j s.advance := by
  simp [step, h, s.fetch_of_fetchOk hf, hd]

/-- All that a step can do: a Faulted machine answers its fault, the fetch faults, the word is invalid, or the decoded
instruction executes (60 R239). -/
theorem step_cases (s t : State) (h : step s = .next t) :
    (∃ r, s.status = .faulted r ∧ t = s.setOutcome (.fault r)) ∨
    (s.status = .running ∧ ¬ s.fetchOk ∧ t = s.enterFault ⟨.outOfBounds .fetch s.pc.toNat, s.pc, none⟩) ∨
    (s.status = .running ∧ s.fetchOk ∧ ∃ o, (o = .invalidOpcode s.pc s.wordAtPc ∨ o = .ok false) ∧
      t = s.advance.setOutcome o) ∨
    (s.status = .running ∧ s.fetchOk ∧ ∃ j, decodeWord s.wordAtPc = .ok j ∧ exec j s.advance = .next t) := by
  cases hs : s.status with
  | faulted r =>
    rw [step_faulted s r hs] at h
    exact .inl ⟨r, rfl, by cases h; rfl⟩
  | running =>
    by_cases hf : s.fetchOk
    · cases hd : decodeWord s.wordAtPc with
      | error e =>
        rw [step_invalid s e hs hf hd, State.invalidOpcode] at h
        refine .inr (.inr (.inl ⟨rfl, hf, ?_⟩))
        split at h
        · rw [State.pc0_advance] at h
          exact ⟨_, .inl rfl, by cases h; rfl⟩
        · exact ⟨_, .inr rfl, by cases h; rfl⟩
      | ok j =>
        rw [step_exec s j hs hf hd] at h
        exact .inr (.inr (.inr ⟨rfl, hf, j, rfl, h⟩))
    · rw [step_not_fetchOk s hs hf] at h
      exact .inr (.inl ⟨rfl, hf, by cases h; rfl⟩)

/-! ## Frames -/

@[simp] theorem among_cons (q : Piece) (l : List Piece) (p : Piece) : among (q :: l) p ↔ p = q ∨ among l p := by
  simp [among]

@[simp] theorem among_nil (p : Piece) : among [] p ↔ False := by
  simp [among]

theorem ChangesOnly.refl (s : State) (allowed : Piece → Prop) : ChangesOnly s s allowed := by
  intro p _
  cases p <;> rfl

/-- Changes that are allowed stay allowed when more is. -/
theorem ChangesOnly.mono (s t : State) (a b : Piece → Prop) (h : ChangesOnly s t a) (hab : ∀ p, a p → b p) :
    ChangesOnly s t b := fun p hp => h p fun ha => hp (hab p ha)

/-- Changes add up. -/
theorem ChangesOnly.trans (s t u : State) (a : Piece → Prop) (h : ChangesOnly s t a) (h' : ChangesOnly t u a) :
    ChangesOnly s u a := by
  intro p hp
  have h1 := h p hp
  have h2 := h' p hp
  cases p <;> exact Eq.trans h2 h1

theorem changesOnly_setOutcome (s : State) (o : StepOutcome) : ChangesOnly s (s.setOutcome o) (among [.outcome]) := by
  intro p hp
  cases p <;> first | rfl | simp at hp

theorem changesOnly_setPc (s : State) (a : Word) : ChangesOnly s (s.setPc a) (among [.pc]) := by
  intro p hp
  cases p <;> first | rfl | simp at hp

theorem changesOnly_setReg (s : State) (x : Reg) (b : Byte) : ChangesOnly s (s.setReg x b) (among [.reg x]) := by
  intro p hp
  cases p with
  | reg r => exact s.reg_setReg_ne x r b (by simpa using hp)
  | _ => rfl

theorem changesOnly_enterFault (s : State) (r : FaultRecord) :
    ChangesOnly s (s.enterFault r) (among [.pc, .status, .outcome]) := by
  intro p hp
  cases p <;> first | rfl | simp at hp

/-- Raising in an instruction, as `RaisesError` states it. -/
theorem raisesError_of_exec (j : Instr) (s : State) (e : FatalError) (h : exec j s = s.raise j e) :
    RaisesError j s e :=
  ⟨_, h, rfl, rfl, rfl, changesOnly_enterFault s _⟩

end Sys2Proof.Machine
end

