-- ==== Sys2Proof/Machine/AsmText.lean ====
section
/-! DEFINITION. The text of an assembler's source and of a disassembler's listing (30_encoding.md R104, R105): one
instruction a line, operands parted by commas, registers V0 to VF, immediates in hex with 0x or in decimal, and
`label:`. It is no part of the machine. -/

namespace Sys2Proof.Machine

/-! ## Characters -/

/-- White space within a line. -/
def isBlank (c : Char) : Bool := c = ' ' || c = '\t' || c = '\r'

/-- Without the leading white space. -/
def trimLeft (cs : List Char) : List Char := cs.dropWhile isBlank

/-- Without the white space at both ends. -/
def trim (cs : List Char) : List Char := (trimLeft (trimLeft cs).reverse).reverse

/-- The parts between separators. -/
def splitAtChar (sep : Char) : List Char → List (List Char)
  | [] => [[]]
  | c :: cs =>
    if c = sep then [] :: splitAtChar sep cs
    else match splitAtChar sep cs with
      | [] => [[c]]
      | w :: ws => (c :: w) :: ws

/-- The value of a hex digit. -/
def digitValue (c : Char) : Option Nat :=
  if '0'.toNat ≤ c.toNat ∧ c.toNat ≤ '9'.toNat then some (c.toNat - '0'.toNat)
  else if 'A'.toNat ≤ c.toNat ∧ c.toNat ≤ 'F'.toNat then some (c.toNat - 'A'.toNat + 10)
  else if 'a'.toNat ≤ c.toNat ∧ c.toNat ≤ 'f'.toNat then some (c.toNat - 'a'.toNat + 10)
  else none

/-- A string of digits in a base, after what was read already. -/
def readDigits (base acc : Nat) : List Char → Option Nat
  | [] => some acc
  | c :: cs =>
    match digitValue c with
    | some d => if d < base then readDigits base (acc * base + d) cs else none
    | none => none

/-- An immediate: hex with `0x`, or decimal (R104). -/
def readNumber : List Char → Option Nat
  | '0' :: 'x' :: d :: ds => readDigits 16 0 (d :: ds)
  | d :: ds => readDigits 10 0 (d :: ds)
  | [] => none

/-! ## Reading a source -/

/-- A number or a label, before `+V0` (R104). DESIGN CHOICE (log 18): whatever is no number is a label here. -/
def readAddr (cs : List Char) : AsmAddr :=
  match readNumber cs with
  | some v => .lit v
  | none => .label (String.ofList cs)

/-- A register: `V` and hex digits. One beyond VF is read as well, for R105 to refuse. -/
def readRegister : List Char → Option Nat
  | 'V' :: d :: ds => readDigits 16 0 (d :: ds)
  | _ => none

/-- The operand of the jump through V0: an address and `+V0`. -/
def readJumpV0 (cs : List Char) : Option AsmAddr :=
  match splitAtChar '+' cs with
  | [a, b] => if trim b = ['V', '0'] then some (readAddr (trim a)) else none
  | _ => none

/-- One operand of an instruction. A number stands for `n` in `draw`, for `nnn` in a jump, a call and `set I`, and for
`nn` elsewhere. A `V` and hex digits are a register, which R105 refuses beyond VF. DESIGN CHOICE (log 18): R104 gives no
label syntax. The words read here as a register, as `I`, or as a number are never read as labels, and neither is a word
that ends in `+V0` with no other `+`; every other word is a label. -/
def readOperand (mnemonic : String) (afterI : Bool) (cs : List Char) : AsmOperand :=
  if cs = ['I'] then .indexReg
  else match readRegister cs with
    | some k => .reg k
    | none =>
      match readJumpV0 cs with
      | some a => .nnnPlusV0 a
      | none =>
        match readNumber cs with
        | some v =>
          if mnemonic = "draw" then .n v
          else if mnemonic = "jump" ∨ mnemonic = "call" ∨ afterI = true then .nnn (.lit v)
          else .nn v
        | none => .nnn (.label (String.ofList cs))

/-- The operands of a line, in order. -/
def readOperands (mnemonic : String) : Bool → List (List Char) → List AsmOperand
  | _, [] => []
  | afterI, cs :: rest => readOperand mnemonic afterI cs :: readOperands mnemonic (cs = ['I']) rest

/-- The instruction of a line, if it has one. -/
def readInstr (cs : List Char) : Option AsmLine :=
  match trim cs with
  | [] => none
  | c :: rest =>
    let name := String.ofList ((c :: rest).takeWhile fun d => !isBlank d)
    let tail := trim ((c :: rest).dropWhile fun d => !isBlank d)
    some ⟨name, if tail = [] then [] else readOperands name false ((splitAtChar ',' tail).map trim)⟩

/-- A line: `label:` and an instruction, either of which may be missing. What stands before the last colon of several is
no label, so such a line is refused. DESIGN CHOICE (log 18): any word before a colon may be defined as a label, also one
that an operand never reads as a label. -/
def readLine (cs : List Char) : Except AsmError ProgramLine :=
  match splitAtChar ':' cs with
  | [body] => .ok (none, readInstr body)
  | [name, body] => .ok (some (String.ofList (trim name)), readInstr body)
  | _ => .error (.noSuchForm (String.ofList cs))

/-- A source text to its image, the bytes that `reset` loads at 0x200. -/
def assembleText (src : String) : Except AsmError (List Byte) := do
  let lines ← (splitAtChar '\n' src.toList).mapM readLine
  assembleProgram lines

/-! ## Writing a listing -/

/-- A hex digit. -/
def hexChar (d : Nat) : Char := if d < 10 then Char.ofNat ('0'.toNat + d) else Char.ofNat ('A'.toNat + (d - 10))

/-- An immediate in hex, with a fixed number of digits. -/
def hexText (digits v : Nat) : List Char :=
  '0' :: 'x' :: (List.range digits).reverse.map fun k => hexChar (v / 16 ^ k % 16)

/-- A number or a label. -/
def addrText : AsmAddr → List Char
  | .lit v => hexText 3 v
  | .label name => name.toList

/-- One operand. -/
def operandText : AsmOperand → List Char
  | .reg k => ['V', hexChar k]
  | .nn v => hexText 2 v
  | .n v => hexText 1 v
  | .nnn a => addrText a
  | .nnnPlusV0 a => addrText a ++ ['+', 'V', '0']
  | .indexReg => ['I']

/-- Operands parted by commas. -/
def operandsText : List AsmOperand → List Char
  | [] => []
  | [o] => ' ' :: operandText o
  | o :: rest => ' ' :: operandText o ++ ',' :: operandsText rest

/-- The text of a line. -/
def lineText (l : AsmLine) : List Char := l.mnemonic.toList ++ operandsText l.operands

/-- What a disassembler prints for an instruction (R105): the ignored bits do not show. -/
def instrText (j : Instr) : String := String.ofList (lineText (disassemble j))

end Sys2Proof.Machine
end

