-- ==== Sys2Proof/Tests/Slice0.lean ====
section
/-! SUPPORT. Tests: ill-formed source lines, words written out from the spec's encodings, one step per instruction, and
a witness for the hypotheses of each statement. Expected results come from 95_test_vectors.md (the section is named), or
from the rule named. -/

namespace Sys2Proof.Tests

open Sys2Proof.Machine

/-! ## Well-formedness (30_encoding.md R105) -/

theorem test_refuses_nn_256 :
    (AsmLine.mk "set" [.reg 0, .nn 256]).wellFormed = false ∧
    (AsmLine.mk "set" [.reg 0, .nn 255]).wellFormed = true := by decide

theorem test_refuses_nnn_0x1000 :
    (AsmLine.mk "jump" [.nnn (.lit 0x1000)]).wellFormed = false ∧
    (AsmLine.mk "jump" [.nnn (.lit 0xFFF)]).wellFormed = true := by decide

theorem test_refuses_nnn_plus_v0_0x1000 :
    (AsmLine.mk "jump" [.nnnPlusV0 (.lit 0x1000)]).wellFormed = false ∧
    (AsmLine.mk "jump" [.nnnPlusV0 (.lit 0)]).wellFormed = true := by decide

theorem test_refuses_n_16 :
    (AsmLine.mk "draw" [.reg 0, .reg 1, .n 16]).wellFormed = false ∧
    (AsmLine.mk "draw" [.reg 0, .reg 1, .n 15]).wellFormed = true := by decide

theorem test_refuses_register_16 :
    (AsmLine.mk "or" [.reg 0, .reg 16]).wellFormed = false ∧
    (AsmLine.mk "or" [.reg 0, .reg 15]).wellFormed = true := by decide

/-- 00 R9: the defaults meet the one condition on a parameter. -/
theorem test_default_params_wf : defaultParams.wf := by decide

/-! ## Decoding: the words of 30_encoding.md R94 and R100, bit by bit -/

theorem test_decode_family0 :
    decodeTableWord 16 0b0000_0000_1110_0000 = some .clearScreen ∧
    decodeTableWord 16 0b0000_0000_1110_1110 = some .ret ∧
    decodeTableWord 16 0b0000_0000_0000_0000 = none ∧
    decodeTableWord 16 0b0000_0000_1110_0001 = none ∧
    decodeTableWord 16 0b0000_0001_0010_0011 = none := by decide

theorem test_decode_control_flow :
    decodeTableWord 16 0b0001_0011_0000_0000 = some (.jump 0x300) ∧
    decodeTableWord 16 0b0010_0011_0000_0000 = some (.call 0x300) ∧
    decodeTableWord 16 0b0011_0001_0000_0101 = some (.skipEqImm 1 5) ∧
    decodeTableWord 16 0b0100_0001_0000_0101 = some (.skipNeqImm 1 5) ∧
    decodeTableWord 16 0b0101_0010_0011_0001 = some (.skipEqReg 2 3 1) ∧
    decodeTableWord 16 0b1001_0010_0011_0000 = some (.skipNeqReg 2 3 0) ∧
    decodeTableWord 16 0b1011_0011_0000_0001 = some (.jumpV0 0x301) := by decide

theorem test_decode_immediates :
    decodeTableWord 16 0b0110_1010_0100_0010 = some (.setImm 0xA 0x42) ∧
    decodeTableWord 16 0b0111_0011_1111_1111 = some (.addImm 3 0xFF) ∧
    decodeTableWord 16 0b1100_0101_0000_1111 = some (.random 5 0x0F) := by decide

theorem test_decode_family8 :
    decodeTableWord 16 0b1000_0001_0010_0000 = some (.setReg 1 2) ∧
    decodeTableWord 16 0b1000_0001_0010_0001 = some (.orReg 1 2) ∧
    decodeTableWord 16 0b1000_0001_0010_0010 = some (.andReg 1 2) ∧
    decodeTableWord 16 0b1000_0001_0010_0011 = some (.xorReg 1 2) ∧
    decodeTableWord 16 0b1000_0001_0010_0100 = some (.addReg 1 2) ∧
    decodeTableWord 16 0b1000_0001_0010_0101 = some (.subReg 1 2) ∧
    decodeTableWord 16 0b1000_1010_0101_0110 = some (.shiftRight 0xA 5) ∧
    decodeTableWord 16 0b1000_0001_0010_0111 = some (.subnReg 1 2) ∧
    decodeTableWord 16 0b1000_0010_0000_1110 = some (.shiftLeft 2 0) ∧
    decodeTableWord 16 0b1000_0000_0000_1000 = none ∧
    decodeTableWord 16 0b1000_0000_0000_1111 = none := by decide

theorem test_decode_index_and_draw :
    decodeTableWord 16 0b1010_0001_0010_0011 = some (.setI 0x123) ∧
    decodeTableWord 16 0b1101_0001_0010_1111 = some (.draw 1 2 15) := by decide

theorem test_decode_familyE :
    decodeTableWord 16 0b1110_0101_1001_1110 = some (.skipIfKey 5) ∧
    decodeTableWord 16 0b1110_0000_1010_0001 = some (.skipIfNotKey 0) ∧
    decodeTableWord 16 0b1110_0000_1001_1111 = none := by decide

theorem test_decode_familyF :
    decodeTableWord 16 0b1111_0011_0000_0111 = some (.getDelay 3) ∧
    decodeTableWord 16 0b1111_0011_0000_1010 = some (.waitKey 3) ∧
    decodeTableWord 16 0b1111_0000_0001_0101 = some (.setDelay 0) ∧
    decodeTableWord 16 0b1111_0000_0001_1000 = some (.setSound 0) ∧
    decodeTableWord 16 0b1111_0000_0001_1110 = some (.addI 0) ∧
    decodeTableWord 16 0b1111_0001_0010_1001 = some (.setIToGlyph 1) ∧
    decodeTableWord 16 0b1111_1010_0011_0011 = some (.storeBcd 0xA) ∧
    decodeTableWord 16 0b1111_0010_0101_0101 = some (.dumpRegs 2) ∧
    decodeTableWord 16 0b1111_0000_0110_0101 = some (.loadRegs 0) ∧
    decodeTableWord 16 0b1111_0000_0111_0101 = none := by decide

/-- 30 R104: the source lines of P1 assemble to its image. -/
theorem test_assemble_p1 :
    (assembleProgram [(none, some ⟨"set", [.reg 0, .nn 0x42]⟩), (some "done", none),
      (none, some ⟨"jump", [.nnn (.label "done")]⟩)]).toOption =
      some [0x60, 0x42, 0x12, 0x02] := by decide

/-- 30 R104: the text of P1 assembles to its image. -/
theorem test_assemble_text_p1 :
    (assembleText "  set V0, 0x42\ndone: jump done").toOption = some [0x60, 0x42, 0x12, 0x02] := by decide

/-- 30 R104: a label stands wherever `nnn` does, before `+V0` too. -/
theorem test_assemble_text_label_v0 :
    (assembleText "Victory: jump Victory+V0").toOption = some [0xB2, 0x00] := by decide

/-- 30 R105: what the disassembler prints of a draw, of a jump through V0, and of a skip with N not 0. -/
theorem test_instr_text :
    instrText (.draw 1 2 15) = "draw V1, V2, 0xF" ∧ instrText (.jumpV0 0x300) = "jump 0x300+V0" ∧
    instrText (.skipEqReg 2 0xA 1) = "skip-eq V2, VA" := by decide

/-! ## One step per instruction -/

/-- The reset state with some registers set. -/
def start (regs : List (Reg × Byte)) : State := regs.foldl (fun s p => s.setReg p.1 p.2) State.reset

/-- The state after one step that fetches the word. -/
def run (s : State) (w : Nat) : State := (s.withFetchWord 16 w).afterStep

/-- The reset state with other parameters. -/
def withParams (p : Params) (s : State) : State := { s with params := p }

/-- A keypad on which the keys of the list are pressed. -/
def pad (l : List Nat) : Keypad := Vector.ofFn fun k => decide (k.val ∈ l)

/-- The pixels that are on, row by row from the top, each row from the left. -/
def lit (s : State) : List (Nat × Nat) :=
  (List.finRange 32).flatMap fun py =>
    (List.finRange 64).filterMap fun px => if s.pixel px py then some (px.val, py.val) else none

/-! 95 section 2.2. -/

theorem test_set_imm : (run State.reset 0x6A42).reg 0xA = 0x42 ∧ (run State.reset 0x6A42).pc = 0x202 := by decide

theorem test_add_imm_wraps_without_flag :
    (run (start [(3, 0xFF), (15, 0x55)]) 0x7301).reg 3 = 0x00 ∧
    (run (start [(3, 0xFF), (15, 0x55)]) 0x7301).reg 15 = 0x55 := by decide

theorem test_set_reg : (run (start [(2, 0x17)]) 0x8120).reg 1 = 0x17 := by decide

theorem test_or_reg :
    (run (start [(0, 0xF0), (1, 0x0F), (15, 0x55)]) 0x8011).reg 0 = 0xFF ∧
    (run (start [(0, 0xF0), (1, 0x0F), (15, 0x55)]) 0x8011).reg 15 = 0x55 := by decide

theorem test_and_reg : (run (start [(0, 0xF0), (1, 0x3C)]) 0x8012).reg 0 = 0x30 := by decide

theorem test_xor_reg :
    (run (start [(0, 0xFF), (1, 0x0F)]) 0x8013).reg 0 = 0xF0 ∧ (run (start [(0, 0x5A)]) 0x8003).reg 0 = 0 := by decide

theorem test_add_reg_carries :
    (run (start [(0, 0x80), (1, 0x80)]) 0x8014).reg 0 = 0x00 ∧
    (run (start [(0, 0x80), (1, 0x80)]) 0x8014).reg 15 = 0 ∧
    (run (withParams { defaultParams with addFlag := .carry } (start [(0, 0x80), (1, 0x80)])) 0x8014).reg 15 = 1 := by
  decide

theorem test_add_reg_into_vf : (run (start [(15, 0x90), (1, 0x90)]) 0x8F14).reg 15 = 0x20 := by decide

theorem test_sub_reg_equal :
    (run (start [(0, 0x05), (1, 0x05)]) 0x8015).reg 0 = 0x00 ∧
    (run (start [(0, 0x05), (1, 0x05)]) 0x8015).reg 15 = 1 := by decide

theorem test_sub_reg_borrows :
    (run (start [(0, 0x03), (1, 0x05)]) 0x8015).reg 0 = 0xFE ∧
    (run (start [(0, 0x03), (1, 0x05)]) 0x8015).reg 15 = 0 ∧
    (run (withParams { defaultParams with subFlag := .borrow } (start [(0, 0x03), (1, 0x05)])) 0x8015).reg 15 = 1 := by
  decide

theorem test_subn_reg :
    (run (start [(0, 0x05), (1, 0x03)]) 0x8017).reg 0 = 0xFE ∧
    (run (start [(0, 0x05), (1, 0x03)]) 0x8017).reg 15 = 0 ∧
    (run (start [(0, 0x03), (1, 0x05)]) 0x8017).reg 15 = 1 := by decide

theorem test_shift_right_ignores_y :
    (run (start [(4, 0x01), (5, 0xFF)]) 0x8456).reg 4 = 0x00 ∧
    (run (start [(4, 0x01), (5, 0xFF)]) 0x8456).reg 15 = 1 := by decide

theorem test_shift_left_flag :
    (run (start [(2, 0x81)]) 0x820E).reg 2 = 0x02 ∧ (run (start [(2, 0x81)]) 0x820E).reg 15 = 1 ∧
    (run (start [(2, 0x7F)]) 0x820E).reg 2 = 0xFE ∧ (run (start [(2, 0x7F)]) 0x820E).reg 15 = 0 := by decide

/-- 40 R143: one draw is used up, and nothing but V5 changes besides PC. -/
theorem test_random_draws :
    (run (start [(4, 0xFF)]) 0xC500).draws = 1 ∧ (run (start [(4, 0xFF)]) 0xC500).reg 4 = 0xFF ∧
    (run (start [(4, 0xFF)]) 0xC500).pc = 0x202 := by decide

/-! 95 section 2.3. -/

theorem test_jump : (run State.reset 0x1300).pc = 0x300 := by decide

theorem test_call_pushes : (run State.reset 0x2300).pc = 0x300 ∧ (run State.reset 0x2300).stack = [0x202] := by decide

theorem test_call_overflows :
    (run (State.reset.setStack (List.replicate 16 0x202)) 0x2300).status =
      .faulted ⟨.stackOverflow, 0x200, some 0x2300⟩ ∧
    (run (State.reset.setStack (List.replicate 16 0x202)) 0x2300).stack.length = 16 := by decide

theorem test_return_pops :
    (run (State.reset.setStack [0x206]) 0x00EE).pc = 0x206 ∧ (run (State.reset.setStack [0x206]) 0x00EE).stack = [] := by
  decide

theorem test_return_underflows :
    (run State.reset 0x00EE).status = .faulted ⟨.stackUnderflow, 0x200, some 0x00EE⟩ ∧
    (run State.reset 0x00EE).pc = 0x200 ∧ outcomeCode (run State.reset 0x00EE).outcome = 3 := by decide

theorem test_skip_eq_imm :
    (run State.reset 0x3100).pc = 0x204 ∧ (run (start [(1, 1)]) 0x3100).pc = 0x202 := by decide

theorem test_skip_neq_imm :
    (run (start [(1, 5)]) 0x4105).pc = 0x202 ∧ (run (start [(1, 6)]) 0x4105).pc = 0x204 := by decide

theorem test_skip_eq_reg :
    (run (start [(2, 7), (3, 7)]) 0x523F).pc = 0x204 ∧ (run (start [(2, 7), (3, 8)]) 0x5230).pc = 0x202 := by decide

theorem test_skip_neq_reg :
    (run (start [(2, 7), (3, 8)]) 0x9230).pc = 0x204 ∧ (run (start [(2, 7)]) 0x9220).pc = 0x202 := by decide

theorem test_jump_v0_is_not_masked :
    (run (start [(0, 0x10)]) 0xB300).pc = 0x310 ∧ (run (start [(0, 0xFF)]) 0xBFFF).pc = 0x10FE := by decide

theorem test_fetch_at_last_address :
    ((State.reset.setPc 0xFFE).withFetchWord 16 0x1FFE).afterStep.status =
      .faulted ⟨.outOfBounds .fetch 0xFFE, 0xFFE, none⟩ ∧
    (((withParams { defaultParams with memLimit := .x1000 } State.reset).setPc 0xFFE).withFetchWord 16 0x1FFE).afterStep.pc
      = 0xFFE := by decide

/-! 95 section 2.4. -/

theorem test_set_i : (run State.reset 0xA123).i = 0x123 := by decide

theorem test_add_i_flag :
    (run ((start [(0, 1)]).setI 0xFFF) 0xF01E).i = 0x1000 ∧ (run ((start [(0, 1)]).setI 0xFFF) 0xF01E).reg 15 = 1 ∧
    (run ((start [(0, 0x0F)]).setI 0xFF0) 0xF01E).reg 15 = 0 := by decide

theorem test_add_i_of_vf :
    (run ((start [(15, 0x20)]).setI 0x100) 0xFF1E).i = 0x120 ∧
    (run ((start [(15, 0x20)]).setI 0x100) 0xFF1E).reg 15 = 0 := by decide

theorem test_glyph_address :
    (run (start [(1, 5)]) 0xF129).i = 0x019 ∧ (run (start [(1, 0x0F)]) 0xF129).i = 0x04B := by decide

theorem test_glyph_16_raises :
    (run (start [(1, 0x10)]) 0xF129).status = .faulted ⟨.outOfBounds .glyph 0x10, 0x200, some 0xF129⟩ ∧
    (run (start [(1, 0x10)]) 0xF129).i = 0 := by decide

theorem test_store_bcd :
    (run ((start [(0xA, 0xFE)]).setI 0x300) 0xFA33).mem.readBytes 0x300 3 = [2, 5, 4] ∧
    (run ((start [(0xA, 0x64)]).setI 0xFFC) 0xFA33).mem.readBytes 0xFFC 3 = [1, 0, 0] := by decide

theorem test_store_bcd_raises :
    (run (State.reset.setI 0xFFD) 0xFA33).status = .faulted ⟨.outOfBounds .write 0xFFF, 0x200, some 0xFA33⟩ ∧
    (run (State.reset.setI 0x1000) 0xFA33).status = .faulted ⟨.outOfBounds .write 0x1000, 0x200, some 0xFA33⟩ := by decide

theorem test_dump_regs :
    (run ((start [(0, 1), (1, 2), (2, 3)]).setI 0x400) 0xF255).mem.readBytes 0x400 3 = [1, 2, 3] ∧
    (run ((start [(0, 1), (1, 2), (2, 3)]).setI 0x400) 0xF255).i = 0x400 := by decide

theorem test_dump_regs_raises :
    (run (State.reset.setI 0xFF0) 0xFF55).status = .faulted ⟨.outOfBounds .write 0xFFF, 0x200, some 0xFF55⟩ ∧
    (run (withParams { defaultParams with memLimit := .x1000 } ((start [(15, 9)]).setI 0xFF0)) 0xFF55).mem.read 0xFFF = 9 := by
  decide

theorem test_load_regs :
    (run (((start [(3, 0x77)]).setI 0x300).setMem ((blankMemory 0).writeBytes 0x300 [2, 5, 4])) 0xF265).v =
      ⟨#[2, 5, 4, 0x77, 0, 0, 0, 0, 0, 0, 0, 0, 0, 0, 0, 0], rfl⟩ := by decide

theorem test_load_regs_raises :
    (run ((start [(0, 7)]).setI 0xFF1) 0xFF65).status = .faulted ⟨.outOfBounds .read 0xFFF, 0x200, some 0xFF65⟩ ∧
    (run ((start [(0, 7)]).setI 0xFF1) 0xFF65).reg 0 = 7 := by decide

theorem test_get_delay : (run (State.reset.setDt 0x3C) 0xF307).reg 3 = 0x3C := by decide

theorem test_set_delay : (run (start [(0, 60)]) 0xF015).dt = 60 := by decide

theorem test_set_sound :
    (run (start [(0, 2)]) 0xF018).st = 2 ∧ (run (start [(0, 2)]) 0xF018).tone = true ∧
    (run (start [(0, 2)]) 0xF018).tickTimers.tickTimers.tone = false := by decide

/-! 95 section 2.5. -/

theorem test_clear_screen :
    lit (run ((start []).setFb (Vector.replicate 32 0xFF)) 0x00E0) = [] ∧
    (run State.reset 0x00E0).outcome = .ok true := by decide

theorem test_draw_wraps :
    lit (run (start [(0, 62), (1, 30)]) 0xD015) =
      [(1, 0), (62, 0), (1, 1), (62, 1), (0, 2), (1, 2), (62, 2), (63, 2), (0, 30), (1, 30), (62, 30), (63, 30),
       (1, 31), (62, 31)] ∧ (run (start [(0, 62), (1, 30)]) 0xD015).reg 15 = 1 := by decide

theorem test_draw_clips :
    lit (run (withParams { defaultParams with drawEdge := .clip } (start [(0, 126), (1, 62)])) 0xD015) =
      [(62, 30), (63, 30), (62, 31)] := by decide

/-! 95 section 2.6. -/

theorem test_skip_if_key :
    (run ((start [(0, 5)]).setKeys (pad [5])) 0xE09E).pc = 0x204 ∧ (run (start [(0, 5)]) 0xE09E).pc = 0x202 := by decide

theorem test_skip_if_key_16_raises :
    (run (start [(0, 0x10)]) 0xE09E).status = .faulted ⟨.outOfBounds .key 0x10, 0x200, some 0xE09E⟩ ∧
    (run (start [(0, 0x10)]) 0xE09E).pc = 0x200 := by decide

theorem test_skip_if_not_key :
    (run ((start [(0, 5)]).setKeys (pad [5])) 0xE0A1).pc = 0x202 ∧ (run (start [(0, 5)]) 0xE0A1).pc = 0x204 := by decide

theorem test_wait_key_blocks :
    (run (start [(3, 0x33)]) 0xF30A).outcome = .awaitingInput ∧ (run (start [(3, 0x33)]) 0xF30A).pc = 0x200 ∧
    (run (start [(3, 0x33)]) 0xF30A).reg 3 = 0x33 := by decide

theorem test_wait_key_takes_lowest :
    (run (State.reset.setKeys (pad [9, 7])) 0xF30A).reg 3 = 7 ∧ (run (State.reset.setKeys (pad [9, 7])) 0xF30A).pc = 0x202 := by
  decide

/-! 95 sections 2.1 and 2.7. -/

theorem test_invalid_opcode :
    (run State.reset 0x0000).outcome = .invalidOpcode 0x200 0 ∧ (run State.reset 0x0000).pc = 0x202 ∧
    (run (withParams { defaultParams with invalidReport := .silent } State.reset) 0x0000).outcome = .ok false := by decide

theorem test_faulted_machine_still_ticks :
    ((run (State.reset.setDt 5) 0x00EE).tickTimers.dt) = 4 ∧
    (run (State.reset.setDt 5) 0x00EE).tickTimers.status = .faulted ⟨.stackUnderflow, 0x200, some 0x00EE⟩ := by decide

theorem test_font_is_rewritten_by_reset :
    ((State.reset.setMem ((blankMemory 0).write 0 0)).resetWith []).1.mem.read 0 = 0xF0 := by decide

/-! ## Witnesses: a state and operands that meet the hypotheses of each statement, clause by clause -/

/-- The reset state about to fetch the word. -/
def at_ (w : Nat) : State := State.reset.withFetchWord 16 w

/-- The machine of P5, after its step: Faulted with StackUnderflow. -/
def faultedState : State := (at_ 0x00EE).afterStep

theorem reset_inv : State.reset.Inv := ⟨rfl, by decide, fun _ h => absurd h List.not_mem_nil, by decide, rfl⟩

theorem witness_ResetGivesTheListedState :
    (List.replicate 3584 (0 : Byte)).length ≤ 3584 ∧ ([] : List Byte).length ≤ 3584 ∧ (0 : Nat) < 80 ∧ (79 : Nat) < 80 ∧
    3583 < (List.replicate 3584 (0 : Byte)).length ∧ (80 ≤ 0x1FF ∧ 0x1FF < 0x200) ∧
    (0x200 + ([] : List Byte).length ≤ 4095 ∧ 4095 < 4096) := by
  rw [List.length_replicate]
  decide

theorem witness_ResetRefusesTooLargeImage :
    3584 < (List.replicate 3585 (0 : Byte)).length ∧ (List.replicate 3584 (0 : Byte)).length ≤ 3584 := by
  rw [List.length_replicate, List.length_replicate]
  decide

theorem witness_ResetStateIsAnEmptyReset : State.reset.params = defaultParams := rfl

theorem witness_StepKeepsTheInvariant : ∃ t, (at_ 0x2300).Inv ∧ step (at_ 0x2300) = .next t :=
  ⟨_, ⟨by decide, by decide, fun _ h => absurd h List.not_mem_nil, by decide, by decide⟩, rfl⟩

theorem witness_SetKeysAndTone : (0 : Nat) < 16 ∧ (15 : Nat) < 16 := by decide

theorem witness_EncodeDecodeRoundTrip : decodeWord 0xD12F = .ok (.draw 1 2 15) := rfl

theorem witness_AssemblerInvertsDisassembler : (AsmLine.mk "set" [.reg 0, .nn 256]).wellFormed = false := by decide

theorem witness_StepRunsTheDecodedInstruction :
    (at_ 0x6A42).status = .running ∧ (at_ 0x6A42).fetchOk ∧ decodeWord (at_ 0x6A42).wordAtPc = .ok (.setImm 0xA 0x42) :=
  ⟨rfl, by decide, rfl⟩

theorem witness_FaultedMachineIsStuck :
    faultedState.status = .faulted ⟨.stackUnderflow, 0x200, some 0x00EE⟩ ∧ faultedState.faultConsistent = true ∧
    ([] : List Byte).length ≤ 3584 := by decide

/-- The first and the last fetchable PC; an odd PC, one below 0x200, and the first one past the end at each value of
`MEM_LIMIT`. -/
theorem witness_FetchFaultsOutsideTheFetchableSet :
    State.reset.fetchOk ∧ (State.reset.setPc 0xFFC).fetchOk ∧
    (State.reset.setPc 0x201).status = .running ∧ (State.reset.setPc 0x201).pc.toNat % 2 = 1 ∧
    (State.reset.setPc 0x1FE).pc.toNat < 0x200 ∧
    (State.reset.setPc 0xFFE).params.memLimit.toNat ≤ (State.reset.setPc 0xFFE).pc.toNat + 1 ∧
    (withParams { defaultParams with memLimit := .x1000 } (State.reset.setPc 0x1000)).params.memLimit.toNat ≤
      (State.reset.setPc 0x1000).pc.toNat + 1 := by decide

theorem witness_InvalidOpcodeOnlyAdvancesPc :
    ((at_ 0).status = .running ∧ (at_ 0).fetchOk ∧ decodeWord (at_ 0).wordAtPc = .error (.invalidOpcode (at_ 0).wordAtPc)) ∧
    (at_ 0).params.invalidReport = .warn ∧
    (withParams { defaultParams with invalidReport := .silent } (at_ 0)).params.invalidReport = .silent :=
  ⟨⟨rfl, by decide, rfl⟩, rfl, rfl⟩

/-- A fault of an instruction, and one of the fetch. -/
theorem witness_FaultIsPrecise :
    (∃ t, (at_ 0x00EE).status = .running ∧ step (at_ 0x00EE) = .next t ∧
      t.status = .faulted ⟨.stackUnderflow, 0x200, some 0x00EE⟩ ∧ (at_ 0x00EE).fetchOk) ∧
    ∃ t, (State.reset.setPc 0x201).status = .running ∧ step (State.reset.setPc 0x201) = .next t ∧
      t.status = .faulted ⟨.outOfBounds .fetch 0x201, 0x201, none⟩ ∧ ¬ (State.reset.setPc 0x201).fetchOk :=
  ⟨⟨_, rfl, rfl, by decide, by decide⟩, ⟨_, rfl, rfl, by decide, by decide⟩⟩

/-- One instruction for each error that an instruction raises. -/
theorem witness_ErrorsComeFromTheirInstructions :
    (∃ t, exec .ret State.reset = .next t ∧ t.status = .faulted ⟨.stackUnderflow, 0x1FE, some 0x00EE⟩) ∧
    (∃ t, exec (.call 0x300) (State.reset.setStack (List.replicate 16 0x202)) = .next t ∧
      t.status = .faulted ⟨.stackOverflow, 0x1FE, some 0x2300⟩) ∧
    (∃ t, exec (.loadRegs 0) (State.reset.setI 0xFFF) = .next t ∧
      t.status = .faulted ⟨.outOfBounds .read 0xFFF, 0x1FE, some 0xF065⟩) ∧
    (∃ t, exec (.storeBcd 0) (State.reset.setI 0xFFF) = .next t ∧
      t.status = .faulted ⟨.outOfBounds .write 0xFFF, 0x1FE, some 0xF033⟩) ∧
    (∃ t, exec (.skipIfNotKey 0) (start [(0, 16)]) = .next t ∧
      t.status = .faulted ⟨.outOfBounds .key 16, 0x1FE, some 0xE0A1⟩) ∧
    ∃ t, exec (.setIToGlyph 0) (start [(0, 16)]) = .next t ∧
      t.status = .faulted ⟨.outOfBounds .glyph 16, 0x1FE, some 0xF029⟩ :=
  ⟨⟨_, rfl, by decide⟩, ⟨_, rfl, by decide⟩, ⟨_, rfl, by decide⟩, ⟨_, rfl, by decide⟩, ⟨_, rfl, by decide⟩,
    ⟨_, rfl, by decide⟩⟩

theorem witness_DirtyExactlyForScreenInstructions :
    (∃ t, exec (.draw 0 0 5) State.reset = .next t ∧ t.outcome = .ok true) ∧
    ∃ t, exec (.setImm 0 1) State.reset = .next t ∧ t.outcome = .ok false :=
  ⟨⟨_, rfl, by decide⟩, ⟨_, rfl, by decide⟩⟩

theorem witness_ParkedMachineStaysParked : (at_ 0x1200).parked ∧ (at_ 0x1200).fetchOk :=
  ⟨⟨rfl, 0x200, by decide, by decide⟩, by decide⟩

theorem witness_AwaitingKeyStepChangesNothing : (at_ 0xF30A).awaitingKey :=
  ⟨rfl, by decide, ⟨3, rfl⟩, by decide⟩

/-- At the last addresses the dump may write. -/
theorem witness_NextFetchSeesTheStore :
    ∃ t, State.reset.mem.wf = true ∧ (State.reset.setI 0xFEF).base + (15 : Reg).toNat < defaultParams.memLimit.toNat ∧
      exec (.dumpRegs 15) (State.reset.setI 0xFEF) = .next t ∧ 14 + 1 ≤ (15 : Reg).toNat :=
  ⟨_, rfl, by decide, rfl, by decide⟩

theorem witness_CanonicalMemoriesAreEqual :
    ((blankMemory 0).write 0x300 1).wf = true ∧ (((blankMemory 0).write 0x300 2).write 0x300 1).wf = true ∧
    ((blankMemory 0).write 0x300 1).fill = (((blankMemory 0).write 0x300 2).write 0x300 1).fill ∧
    ∀ a, ((blankMemory 0).write 0x300 1).peek a = (((blankMemory 0).write 0x300 2).write 0x300 1).peek a :=
  ⟨by decide, by decide, rfl, fun a => by
    have h : (blankMemory 0).write 0x300 1 = ((blankMemory 0).write 0x300 2).write 0x300 1 := by decide
    rw [h]⟩

/-- The modes and destinations that the clauses of `FlaggedResult` name. -/
theorem witness_AddRegister :
    State.reset.params.addFlag = .noCarry ∧
    (withParams { defaultParams with addFlag := .carry } State.reset).params.addFlag = .carry ∧
    ((0 : Reg) ≠ regF ∧ State.reset.params.vfDest = .resultWins) ∧ (15 : Reg) = regF ∧
    (withParams { defaultParams with vfDest := .anyValue } State.reset).params.vfDest = .anyValue := by decide

theorem witness_SubtractRegisters :
    State.reset.params.subFlag = .noBorrow ∧
    (withParams { defaultParams with subFlag := .borrow } State.reset).params.subFlag = .borrow := by decide

theorem witness_RandomMasksADraw : ((at_ 0xC500).wordAtPc &&& 0xFF) = 0 := by decide

theorem witness_ArithmeticNeverRaises : isArith (.addReg 0 1) = true ∧ isArith (.random 0 0) = true := by decide

/-- An empty stack, one entry short of full, and full. -/
theorem witness_CallPushesOrOverflows :
    State.reset.stack.length < State.reset.params.stackDepth ∧
    (State.reset.setStack (List.replicate 15 0x202)).stack.length < State.reset.params.stackDepth ∧
    (State.reset.setStack (List.replicate 16 0x202)).stack.length = State.reset.params.stackDepth := by decide

theorem witness_ReturnPopsOrUnderflows :
    (State.reset.setStack [0x206]).stack = 0x206 :: [] ∧ State.reset.stack = [] := by decide

theorem witness_CallThenReturnComesBack :
    ∃ t, State.reset.stack.length < State.reset.params.stackDepth ∧ exec (.call 0x300) State.reset = .next t ∧
      (t.setReg 0 7).stack = t.stack := ⟨_, by decide, rfl, rfl⟩

theorem witness_GlyphAddressOrRaises :
    ((start [(0, 15)]).reg 0).toNat ≤ 15 ∧ 15 < ((start [(0, 16)]).reg 0).toNat ∧ 15 < ((start [(0, 255)]).reg 0).toNat := by
  decide

theorem witness_StoreBcdDigitsOrRaises :
    State.reset.mem.wf = true ∧ (State.reset.setI 0xFFC).base + 2 < State.reset.params.memLimit.toNat ∧
    State.reset.params.memLimit.toNat ≤ (State.reset.setI 0xFFD).base + 2 := by decide

theorem witness_DumpRegistersOrRaises :
    State.reset.mem.wf = true ∧ (State.reset.setI 0xFEF).base + (15 : Reg).toNat < State.reset.params.memLimit.toNat ∧
    State.reset.params.memLimit.toNat ≤ (State.reset.setI 0xFF0).base + (15 : Reg).toNat := by decide

theorem witness_LoadRegistersOrRaises :
    (State.reset.setI 0xFFE).base + (0 : Reg).toNat < State.reset.params.memLimit.toNat ∧
    State.reset.params.memLimit.toNat ≤ (State.reset.setI 0xFFF).base + (0 : Reg).toNat := by decide

theorem witness_DumpThenLoadRestores :
    ∃ t, State.reset.mem.wf = true ∧ State.reset.base + (2 : Reg).toNat < State.reset.params.memLimit.toNat ∧
      exec (.dumpRegs 2) State.reset = .next t ∧ (t.setReg 0 7).mem = t.mem ∧ (t.setReg 0 7).i = t.i ∧
      (t.setReg 0 7).params = t.params := ⟨_, rfl, by decide, rfl, rfl, rfl, rfl⟩

/-- No rows at any I; the last row below `MEM_LIMIT`; and a row at it. -/
theorem witness_DrawXorsTheSprite :
    ((0 : Nibble).toNat = 0 ∨ (State.reset.setI 0xFFFF).base + (0 : Nibble).toNat - 1 < State.reset.params.memLimit.toNat) ∧
    (State.reset.setI 0xFFC).base + (3 : Nibble).toNat - 1 < State.reset.params.memLimit.toNat ∧
    (0 < (4 : Nibble).toNat ∧
      State.reset.params.memLimit.toNat ≤ (State.reset.setI 0xFFC).base + (4 : Nibble).toNat - 1) := by decide

theorem witness_DrawTwiceRestores :
    ∃ t u, (0 : Reg) ≠ regF ∧ t.status = .running ∧ exec (.draw 0 0 5) State.reset = .next t ∧
      exec (.draw 0 0 5) t = .next u := ⟨_, _, by decide, rfl, rfl, rfl⟩

/-- In each mode, at the far corner. -/
theorem witness_NoPixelVisitedTwice :
    placePixel .wrap 63 31 7 14 = some (6, 13) ∧ placePixel .clip 56 17 7 14 = some (63, 31) ∧ (7 : Nat) < 8 ∧
    (14 : Nat) < 15 := by decide

theorem witness_KeySkipsOrRaise :
    ((start [(0, 15)]).reg 0).toNat < 16 ∧ 15 < ((start [(0, 16)]).reg 0).toNat := by decide

theorem witness_WaitKeyBlocksOrStores :
    (∀ (k : Nat) (h : k < 16), State.reset.keys[k] = false) ∧
    ((pad [7, 9])[7] = true ∧ (State.reset.setKeys (pad [7, 9])).params.keySelect = .lowest ∧
      ∀ (j : Nat) (hj : j < 7), (pad [7, 9])[j] = false) ∧
    (pad [15])[15] = true ∧
    (withParams { defaultParams with keySelect := .any } State.reset).params.keySelect = .any := by decide

theorem witness_RegisterWriters :
    (∃ t, exec (.setImm 0 1) State.reset = .next t ∧ t.reg 0 ≠ State.reset.reg 0) ∧
    ∃ t, exec (.draw 0 0 5) State.reset = .next t ∧ t.reg regF ≠ State.reset.reg regF :=
  ⟨⟨_, rfl, by decide⟩, ⟨_, rfl, by decide⟩⟩

theorem witness_IndexRegisterWriters :
    (∃ t, exec (.setI 0xFFF) State.reset = .next t ∧ t.i ≠ State.reset.i) ∧
    (∃ t, exec (.addI 0) (start [(0, 1)]) = .next t ∧ t.i ≠ (start [(0, 1)]).i) ∧
    ∃ t, exec (.setIToGlyph 0) (start [(0, 15)]) = .next t ∧ t.i ≠ (start [(0, 15)]).i :=
  ⟨⟨_, rfl, by decide⟩, ⟨_, rfl, by decide⟩, ⟨_, rfl, by decide⟩⟩

theorem witness_StackWriters :
    (∃ t, exec (.call 0x300) State.reset = .next t ∧ t.stack ≠ State.reset.stack) ∧
    ∃ t, exec .ret (State.reset.setStack [0x206]) = .next t ∧ t.stack ≠ (State.reset.setStack [0x206]).stack :=
  ⟨⟨_, rfl, by decide⟩, ⟨_, rfl, by decide⟩⟩

theorem witness_FramebufferWriters :
    (∃ t, exec .clearScreen (State.reset.setFb (Vector.replicate 32 1)) = .next t ∧ t.fb ≠ Vector.replicate 32 1) ∧
    ∃ t, exec (.draw 0 0 5) State.reset = .next t ∧ t.fb ≠ State.reset.fb :=
  ⟨⟨_, rfl, by decide⟩, ⟨_, rfl, by decide⟩⟩

theorem witness_MemoryWriters :
    State.reset.mem.wf = true ∧
    (∃ t, exec (.storeBcd 0) State.reset = .next t ∧ t.mem.read 0 ≠ State.reset.mem.read 0) ∧
    ∃ t, exec (.dumpRegs 0) State.reset = .next t ∧ t.mem.read 0 ≠ State.reset.mem.read 0 :=
  ⟨rfl, ⟨_, rfl, by decide⟩, ⟨_, rfl, by decide⟩⟩

theorem witness_TimerAndKeypadWriters :
    (∃ t, exec (.setDelay 0) (start [(0, 1)]) = .next t ∧ t.dt ≠ (start [(0, 1)]).dt) ∧
    ∃ t, exec (.setSound 0) (start [(0, 1)]) = .next t ∧ t.st ≠ (start [(0, 1)]).st :=
  ⟨⟨_, rfl, by decide⟩, ⟨_, rfl, by decide⟩⟩

end Sys2Proof.Tests
end

/-! # What an instruction can do, said once

`Effect s j t` lists the forms in which `exec j s` can answer `t`; `effect_of_exec` ties it to the model. What can happen
to each piece of the state is then read off the forms, one lemma per piece, and the statements about writers and the
invariant are assembled from these lemmas. -/

namespace Sys2Proof.Machine

/-! ## The forms -/

/-- The next states of an instruction, one constructor per kind of update. -/
inductive Effect (s : State) : Instr → State → Prop
  /-- A fatal error, of a kind the instruction can raise (60 R231, R236). -/
  | raised {j : Instr} (e : FatalError) (hj : canRaise e j) :
      Effect s j (s.enterFault ⟨e, s.pc0, some (encode j)⟩)
  /-- One named register. -/
  | wroteReg {j : Instr} {x : Reg} {b : Byte} (hx : hasDest x j) :
      Effect s j ((s.setReg x b).setOutcome (.ok false))
  /-- One named register, from a free value. -/
  | wroteDrawnReg {j : Instr} {x : Reg} {b : Byte} (hx : hasDest x j) :
      Effect s j ((s.drawn.setReg x b).setOutcome (.ok false))
  /-- VF as a flag, and one named register (40 R131). -/
  | wroteFlagged {j : Instr} {x : Reg} {flag result : Byte} (hx : hasDest x j) (hf : writesFlag j = true) :
      Effect s j ((s.writeFlagged x flag result).setOutcome (.ok false))
  /-- V0 to V[x] from memory (42 R187). -/
  | loadedRegs (x : Reg) :
      Effect s (.loadRegs x) ((s.loadRegsFrom 0 (s.mem.readBytes s.base (regCount x))).setOutcome (.ok false))
  /-- A jump, to a target that 10 R26 bounds. -/
  | jumped {j : Instr} (a : Word) (ha : a.toNat ≤ 0x10FE) : Effect s j ((s.setPc a).setOutcome (.ok false))
  /-- A skip. -/
  | skipped {j : Instr} (c : Bool) : Effect s j ((s.skipIf c).setOutcome (.ok false))
  /-- A wait-key with no key pressed (44 R222). -/
  | awaited (x : Reg) : Effect s (.waitKey x) ((s.setPc s.pc0).setOutcome .awaitingInput)
  /-- A call with room on the stack (41 R164). -/
  | called (nnn : Addr) (hroom : s.stack.length < s.params.stackDepth) :
      Effect s (.call nnn) (((s.push s.pc).setPc (addrWord nnn)).setOutcome (.ok false))
  /-- A return from a non-empty stack (41 R162). -/
  | returned (a : Word) (rest : List Word) (hstack : s.stack = a :: rest) :
      Effect s .ret (((s.setStack rest).setPc a).setOutcome (.ok false))
  /-- I from `nnn` (42 R180). -/
  | setIndex (nnn : Addr) : Effect s (.setI nnn) ((s.setI (addrWord nnn)).setOutcome (.ok false))
  /-- I increased, and VF as its flag (42 R181). -/
  | addedIndex (x : Reg) (flag : Byte) (a : Word) :
      Effect s (.addI x) (((s.setReg regF flag).setI a).setOutcome (.ok false))
  /-- I at the glyph of a digit that passed its check (42 R182). -/
  | glyphIndex (x : Reg) (hd : (s.reg x).toNat ≤ 15) :
      Effect s (.setIToGlyph x) ((s.setI (glyphAddr (s.reg x))).setOutcome (.ok false))
  /-- DT (42 R189). -/
  | setDelay (x : Reg) : Effect s (.setDelay x) ((s.setDt (s.reg x)).setOutcome (.ok false))
  /-- ST (42 R190). -/
  | setSound (x : Reg) : Effect s (.setSound x) ((s.setSt (s.reg x)).setOutcome (.ok false))
  /-- Bytes stored from I on, all below `MEM_LIMIT` (42 R185, R186). -/
  | stored {j : Instr} (bytes : List Byte)
      (hj : ((∃ x, j = .storeBcd x) ∧ bytes.length = 3) ∨ ∃ x, j = .dumpRegs x ∧ bytes.length = regCount x)
      (hlim : s.base + bytes.length ≤ s.params.memLimit.toNat) :
      Effect s j ((s.setMem (s.mem.writeBytes s.base bytes)).setOutcome (.ok false))
  /-- The framebuffer cleared (43 R200). -/
  | cleared : Effect s .clearScreen ((s.setFb clearFb).setOutcome (.ok true))
  /-- A sprite drawn, and VF as its flag (43 R201). -/
  | drew (x y : Reg) (n : Nibble) (f : Framebuffer) (flag : Byte) :
      Effect s (.draw x y n) (((s.setFb f).setReg regF flag).setOutcome (.ok true))

namespace Effect

variable {s t u : State} {j : Instr}

/-- An instruction that ends with `Ok`. -/
theorem of_done {d : Bool} (h : exec j s = .next t) (hexec : exec j s = u.done d)
    (he : Effect s j (u.setOutcome (.ok d))) : Effect s j t := by
  rw [hexec, State.done_eq_next] at h
  exact h ▸ he

/-- An instruction whose check can raise, and which ends with `Ok` when the check passes. -/
theorem of_checked {check : Option FatalError} {d : Bool} (h : exec j s = .next t)
    (hexec : exec j s = s.checked j check (u.done d)) (hraise : ∀ e, check = some e → canRaise e j)
    (he : check = none → Effect s j (u.setOutcome (.ok d))) : Effect s j t := by
  rw [hexec] at h
  obtain ⟨e, hc, rfl⟩ | ⟨hc, hd⟩ := s.checked_cases t j check _ h
  · exact .raised e (hraise e hc)
  · rw [State.done_eq_next] at hd
    exact hd ▸ he hc

end Effect

/-! ## What the checks let through -/

theorem toNat_addrWord (nnn : Addr) : (addrWord nnn).toNat = nnn.toNat :=
  BitVec.toNat_setWidth_of_le (by decide)

theorem toNat_byteWord (b : Byte) : (byteWord b).toNat = b.toNat :=
  BitVec.toNat_setWidth_of_le (by decide)

/-- A jump through V0 reaches at most 0xFFF + 0xFF (41 R169). -/
theorem toNat_addrWord_add_byteWord_le (nnn : Addr) (b : Byte) : (addrWord nnn + byteWord b).toNat ≤ 0x10FE := by
  have hn := nnn.isLt
  have hb := b.isLt
  rw [BitVec.toNat_add, toNat_addrWord, toNat_byteWord]
  omega

theorem toNat_addrWord_le (nnn : Addr) : (addrWord nnn).toNat ≤ 0xFFF := by
  have := nnn.isLt
  rw [toNat_addrWord]
  omega

theorem toNat_glyphAddr_le (d : Byte) (h : d.toNat ≤ 15) : (glyphAddr d).toNat ≤ 0x4B := by
  have hmod := Nat.mod_le (5 * d.toNat) (2 ^ 16)
  rw [glyphAddr, BitVec.toNat_ofNat]
  omega

theorem canRaise_of_keyError {j : Instr} {x : Reg} (hj : j = .skipIfKey x ∨ j = .skipIfNotKey x) (k : Byte)
    (e : FatalError) (h : keyError k = some e) : canRaise e j := by
  obtain ⟨-, rfl⟩ := (keyError_some k e).mp h
  exact hj.imp (⟨x, ·⟩) (⟨x, ·⟩)

theorem canRaise_of_glyphError (x : Reg) (d : Byte) (e : FatalError) (h : glyphError d = some e) :
    canRaise e (.setIToGlyph x) := by
  obtain ⟨-, rfl⟩ := (glyphError_some d e).mp h
  exact ⟨x, rfl⟩

theorem canRaise_of_callError (s : State) (nnn : Addr) (e : FatalError) (h : s.callError = some e) :
    canRaise e (.call nnn) := by
  obtain ⟨-, rfl⟩ := (s.callError_some e).mp h
  exact ⟨nnn, rfl⟩

theorem canRaise_of_readError {j : Instr} (hj : (∃ x y n, j = .draw x y n) ∨ ∃ x, j = .loadRegs x) (s : State)
    (base count : Nat) (e : FatalError) (h : s.rangeError .read base count = some e) : canRaise e j := by
  obtain ⟨-, rfl⟩ := (s.rangeError_some .read base count e).mp h
  exact hj

theorem canRaise_of_writeError {j : Instr} (hj : (∃ x, j = .storeBcd x) ∨ ∃ x, j = .dumpRegs x) (s : State)
    (base count : Nat) (e : FatalError) (h : s.rangeError .write base count = some e) : canRaise e j := by
  obtain ⟨-, rfl⟩ := (s.rangeError_some .write base count e).mp h
  exact hj

/-- The write check passed: every address is below `MEM_LIMIT`. -/
theorem State.range_le_memLimit (s : State) (kind : AccessKind) (base count : Nat) (hpos : 0 < count)
    (h : s.rangeError kind base count = none) : base + count ≤ s.params.memLimit.toNat :=
  ((s.rangeError_none kind base count).mp h).resolve_left hpos.ne'

/-! ## Every instruction has one of the forms -/

theorem effect_of_execRet {s t : State} (h : exec .ret s = .next t) : Effect s .ret t := by
  change execRet s = .next t at h
  cases hs : s.stack with
  | nil =>
    rw [execRet, hs] at h
    exact (State.raise_eq_next ..).mp h ▸ .raised _ rfl
  | cons a rest =>
    rw [execRet, hs] at h
    exact (State.done_eq_next ..).mp h ▸ .returned a rest hs

theorem effect_of_execWaitKey {x : Reg} {s t : State} (h : exec (.waitKey x) s = .next t) :
    Effect s (.waitKey x) t := by
  change execWaitKey x s = .next t at h
  cases hp : s.pressed with
  | nil =>
    rw [execWaitKey, hp] at h
    cases h
    exact .awaited x
  | cons k rest =>
    rw [execWaitKey, hp] at h
    rw [(State.done_eq_next ..).mp h, State.keyDrawn]
    split
    · exact .wroteReg rfl
    · exact .wroteDrawnReg rfl

/-- All that an instruction can do. -/
theorem effect_of_exec {j : Instr} {s t : State} (h : exec j s = .next t) : Effect s j t := by
  cases j with
  | clearScreen => exact .of_done h rfl .cleared
  | ret => exact effect_of_execRet h
  | jump nnn => exact .of_done h rfl (.jumped _ ((toNat_addrWord_le nnn).trans (by decide)))
  | call nnn =>
    exact .of_checked h rfl (canRaise_of_callError s nnn) fun hc => .called nnn (s.callError_none.mp hc)
  | skipEqImm | skipNeqImm | skipEqReg | skipNeqReg => exact .of_done h rfl (.skipped _)
  | setImm | addImm | setReg | orReg | andReg | xorReg | getDelay => exact .of_done h rfl (.wroteReg rfl)
  | addReg | subReg | shiftRight | subnReg | shiftLeft => exact .of_done h rfl (.wroteFlagged rfl rfl)
  | setI nnn => exact .of_done h rfl (.setIndex nnn)
  | jumpV0 nnn => exact .of_done h rfl (.jumped _ (toNat_addrWord_add_byteWord_le nnn _))
  | random x nn => exact .of_done h rfl (.wroteDrawnReg rfl)
  | draw x y n =>
    exact .of_checked h rfl (canRaise_of_readError (.inl ⟨x, y, n, rfl⟩) s _ _) fun _ => .drew x y n _ _
  | skipIfKey x => exact .of_checked h rfl (canRaise_of_keyError (.inl rfl) _) fun _ => .skipped _
  | skipIfNotKey x => exact .of_checked h rfl (canRaise_of_keyError (.inr rfl) _) fun _ => .skipped _
  | waitKey x => exact effect_of_execWaitKey h
  | setDelay x => exact .of_done h rfl (.setDelay x)
  | setSound x => exact .of_done h rfl (.setSound x)
  | addI x => exact .of_done h rfl (.addedIndex x _ _)
  | setIToGlyph x =>
    exact .of_checked h rfl (canRaise_of_glyphError x _) fun hc => .glyphIndex x ((glyphError_none _).mp hc)
  | storeBcd x =>
    exact .of_checked h rfl (canRaise_of_writeError (.inl ⟨x, rfl⟩) s _ _) fun hc =>
      .stored _ (.inl ⟨⟨x, rfl⟩, rfl⟩) (s.range_le_memLimit _ _ 3 (by decide) hc)
  | dumpRegs x =>
    exact .of_checked h rfl (canRaise_of_writeError (.inr ⟨x, rfl⟩) s _ _) fun hc =>
      .stored _ (.inr ⟨x, rfl, s.regsUpTo_length x⟩)
        (s.regsUpTo_length x ▸ s.range_le_memLimit _ _ (regCount x) (Nat.succ_pos _) hc)
  | loadRegs x =>
    exact .of_checked h rfl (canRaise_of_readError (.inr ⟨x, rfl⟩) s _ _) fun _ => .loadedRegs x

/-! ## What can happen to each piece of the state -/

/-- Writing a flag and a result leaves the registers other than VF and the destination. -/
theorem State.reg_writeFlagged_ne (s : State) {x r : Reg} (flag result : Byte) (hx : r ≠ x) (hf : r ≠ regF) :
    (s.writeFlagged x flag result).reg r = s.reg r := by
  obtain ⟨-, -, h⟩ | ⟨-, h⟩ := s.writeFlagged_cases x flag result <;> rw [h]
  · rw [State.reg_drawn, State.reg_setReg_ne _ _ _ _ hf]
  · rw [State.reg_setReg_ne _ _ _ _ hx, State.reg_setReg_ne _ _ _ _ hf]

/-- Loading V0 to V[x] leaves the registers above x. -/
theorem State.reg_loadRegsFrom_above (s : State) {x r : Reg} (bytes : List Byte) (hlen : bytes.length = regCount x)
    (hr : ¬ r.toNat ≤ x.toNat) : (s.loadRegsFrom 0 bytes).reg r = s.reg r := by
  have hle := regCount_le x
  rw [State.reg_loadRegsFrom _ _ _ _ (by omega), List.getElem?_eq_none (by rw [hlen, regCount]; omega)]
  simp

namespace Effect

variable {s t : State} {j : Instr}

/-- 10 R22, R23. -/
theorem reg (he : Effect s j t) (r : Reg) : t.reg r = s.reg r ∨ hasDest r j ∨ (r = regF ∧ writesFlag j = true) := by
  cases he with
  | @wroteReg j x b hx | @wroteDrawnReg j x b hx =>
    by_cases h : r = x
    · exact .inr (.inl (h ▸ hx))
    · exact .inl (by simp [State.reg_setReg, h])
  | @wroteFlagged j x flag result hx hf =>
    by_cases h : r = x
    · exact .inr (.inl (h ▸ hx))
    · by_cases hv : r = regF
      · exact .inr (.inr ⟨hv, hf⟩)
      · exact .inl (s.reg_writeFlagged_ne flag result h hv)
  | loadedRegs x =>
    by_cases h : r.toNat ≤ x.toNat
    · exact .inr (.inl h)
    · exact .inl (s.reg_loadRegsFrom_above _ (Memory.readBytes_length ..) h)
  | addedIndex | drew =>
    by_cases hv : r = regF
    · exact .inr (.inr ⟨hv, rfl⟩)
    · exact .inl (by simp [State.reg_setReg, hv])
  | skipped c => exact .inl (s.reg_skipIf c r)
  | _ => exact .inl rfl

/-- 10 R24. -/
theorem index (he : Effect s j t) :
    t.i = s.i ∨ ((∃ nnn, j = .setI nnn) ∧ t.i.toNat ≤ 0xFFF) ∨ (∃ x, j = .addI x) ∨
      ((∃ x, j = .setIToGlyph x) ∧ t.i.toNat ≤ 0x4B) := by
  cases he with
  | setIndex nnn => exact .inr (.inl ⟨⟨nnn, rfl⟩, toNat_addrWord_le nnn⟩)
  | addedIndex x => exact .inr (.inr (.inl ⟨x, rfl⟩))
  | glyphIndex x hd => exact .inr (.inr (.inr ⟨⟨x, rfl⟩, toNat_glyphAddr_le _ hd⟩))
  | _ => exact .inl (by simp)

/-- 10 R28, R29. -/
theorem stack (he : Effect s j t) :
    t.stack = s.stack ∨
      ((∃ nnn, j = .call nnn) ∧ s.stack.length < s.params.stackDepth ∧ t.stack = s.pc :: s.stack) ∨
      (j = .ret ∧ s.stack = t.pc :: t.stack) := by
  cases he with
  | called nnn hroom => exact .inr (.inl ⟨⟨nnn, rfl⟩, hroom, rfl⟩)
  | returned a rest hstack => exact .inr (.inr ⟨rfl, hstack⟩)
  | _ => exact .inl (by simp)

/-- 10 R33. -/
theorem fb (he : Effect s j t) : t.fb = s.fb ∨ j = .clearScreen ∨ ∃ x y n, j = .draw x y n := by
  cases he with
  | cleared => exact .inr (.inl rfl)
  | drew x y n => exact .inr (.inr ⟨x, y, n, rfl⟩)
  | _ => exact .inl (by simp)

/-- 10 R35. -/
theorem dt (he : Effect s j t) : t.dt = s.dt ∨ ∃ x, j = .setDelay x := by
  cases he with
  | setDelay x => exact .inr ⟨x, rfl⟩
  | _ => exact .inl (by simp)

/-- 10 R36. -/
theorem st (he : Effect s j t) : t.st = s.st ∨ ∃ x, j = .setSound x := by
  cases he with
  | setSound x => exact .inr ⟨x, rfl⟩
  | _ => exact .inl (by simp)

/-- 10 R34. -/
theorem keys (he : Effect s j t) : t.keys = s.keys := by
  cases he <;> simp

theorem params (he : Effect s j t) : t.params = s.params := by
  cases he <;> simp

/-- Memory changes only by bytes stored from I on, below `MEM_LIMIT` (20 R69). -/
theorem mem (he : Effect s j t) :
    t.mem = s.mem ∨ ∃ bytes, t.mem = s.mem.writeBytes s.base bytes ∧
      s.base + bytes.length ≤ s.params.memLimit.toNat ∧
      (((∃ x, j = .storeBcd x) ∧ bytes.length = 3) ∨ ∃ x, j = .dumpRegs x ∧ bytes.length = regCount x) := by
  cases he with
  | stored bytes hj hlim => exact .inr ⟨bytes, rfl, hlim, hj⟩
  | _ => exact .inl (by simp)

/-- PC stays, skips, goes back to the instruction, jumps within 10 R26's bound, or is popped. -/
theorem pc (he : Effect s j t) :
    t.pc = s.pc ∨ t.pc = s.pc + 2 ∨ t.pc = s.pc0 ∨ t.pc.toNat ≤ 0x10FE ∨ t.pc ∈ s.stack := by
  cases he with
  | raised | awaited => exact .inr (.inr (.inl rfl))
  | jumped a ha => exact .inr (.inr (.inr (.inl ha)))
  | called nnn => exact .inr (.inr (.inr (.inl ((toNat_addrWord_le nnn).trans (by decide)))))
  | returned a rest hstack => exact .inr (.inr (.inr (.inr (hstack ▸ List.mem_cons_self))))
  | skipped c =>
    cases c with
    | false => exact .inl rfl
    | true => exact .inr (.inl rfl)
  | _ => exact .inl (by simp)

/-- A fault record comes with its outcome and puts PC on the failing instruction; without one the status stays, and the
outcome is no fault (60 R236). -/
theorem status_outcome (he : Effect s j t) :
    (∃ r, t.status = .faulted r ∧ t.outcome = .fault r ∧ t.pc = r.pc0) ∨
      (t.status = s.status ∧ ∀ r, t.outcome ≠ .fault r) := by
  cases he with
  | raised e => exact .inl ⟨_, rfl, rfl, rfl⟩
  | _ => exact .inr (by simp)

end Effect

end Sys2Proof.Machine

/-! # Every step keeps the invariant -/

namespace Sys2Proof.Machine

/-- The value a fetched PC has after its advance, and so the value of every return address (10 R27, 41 R164). -/
def ReturnAddress (limit : MemLimit) (a : Word) : Prop :=
  a.toNat % 2 = 0 ∧ 0x202 ≤ a.toNat ∧ a.toNat ≤ limit.toNat

/-- What holds of the state that `step` gives to an instruction. -/
structure State.Executing (s : State) : Prop where
  running : s.status = .running
  wf : s.mem.wf = true
  depth : s.stack.length ≤ s.params.stackDepth
  returns : ∀ a ∈ s.stack, ReturnAddress s.params.memLimit a
  pc : ReturnAddress s.params.memLimit s.pc

theorem ReturnAddress.le {limit : MemLimit} {a : Word} (h : ReturnAddress limit a) : a.toNat ≤ 0x1000 :=
  h.2.2.trans (memLimit_le limit)

theorem toNat_add_two {a : Word} (h : a.toNat ≤ 0x1000) : (a + 2).toNat = a.toNat + 2 := by
  rw [BitVec.toNat_add, show (2 : Word).toNat = 2 from rfl]
  omega

theorem toNat_sub_two_le {a : Word} (h : 2 ≤ a.toNat) : (a - 2).toNat ≤ a.toNat := by
  have := a.isLt
  rw [BitVec.toNat_sub, show (2 : Word).toNat = 2 from rfl]
  omega

/-- The advance past a fetchable PC does not wrap. -/
theorem State.returnAddress_advance (s : State) (hf : s.fetchOk) :
    ReturnAddress s.advance.params.memLimit s.advance.pc := by
  obtain ⟨heven, hlow, hhigh⟩ := hf
  have hlim : s.params.memLimit.toNat ≤ 0x1000 := memLimit_le _
  have hpc : s.advance.pc.toNat = s.pc.toNat + 2 := toNat_add_two (by omega)
  refine ⟨?_, ?_, ?_⟩ <;> rw [hpc]
  · omega
  · omega
  · show s.pc.toNat + 2 ≤ s.params.memLimit.toNat
    omega

theorem State.Inv.executing_advance {s : State} (h : s.Inv) (hrun : s.status = .running) (hf : s.fetchOk) :
    s.advance.Executing := by
  obtain ⟨hwf, hdepth, hret, -, -⟩ := h
  exact ⟨hrun, hwf, hdepth, hret, s.returnAddress_advance hf⟩

/-! ## The invariant after an instruction, clause by clause -/

namespace Effect

variable {s t : State} {j : Instr}

theorem mem_wf (he : Effect s j t) (hs : s.Executing) : t.mem.wf = true := by
  obtain hm | ⟨bytes, hm, hlim, -⟩ := he.mem <;> rw [hm]
  · exact hs.wf
  · exact s.mem.wf_writeBytes s.base bytes hs.wf (hlim.trans (memLimit_le _))

theorem stack_length_le (he : Effect s j t) (hs : s.Executing) : t.stack.length ≤ t.params.stackDepth := by
  have hdepth := hs.depth
  rw [he.params]
  obtain hst | ⟨-, hroom, hst⟩ | ⟨-, hst⟩ := he.stack
  · rwa [hst]
  · rw [hst]
    exact hroom
  · rw [hst, List.length_cons] at hdepth
    omega

theorem returnsOk (he : Effect s j t) (hs : s.Executing) : t.returnsOk := by
  suffices h : ∀ a ∈ t.stack, ReturnAddress s.params.memLimit a by
    rw [State.returnsOk, he.params]
    exact h
  intro a ha
  obtain hst | ⟨-, -, hst⟩ | ⟨-, hst⟩ := he.stack
  · exact hs.returns a (hst ▸ ha)
  · rw [hst, List.mem_cons] at ha
    obtain rfl | ha := ha
    · exact hs.pc
    · exact hs.returns a ha
  · exact hs.returns a (hst ▸ List.mem_cons_of_mem _ ha)

theorem pc_le (he : Effect s j t) (hs : s.Executing) : t.pc.toNat ≤ 0x10FE := by
  have hle := hs.pc.le
  have hlow : 0x202 ≤ s.pc.toNat := hs.pc.2.1
  obtain h | h | h | h | h := he.pc
  · rw [h]
    omega
  · rw [h, toNat_add_two hle]
    omega
  · have hback := toNat_sub_two_le (a := s.pc) (by omega)
    rw [h, State.pc0]
    omega
  · exact h
  · exact (hs.returns _ h).le.trans (by decide)

end Effect

/-- A fault record consistent with the outcome and PC. -/
theorem State.faultConsistent_of_faulted {s : State} {r : FaultRecord} (hs : s.status = .faulted r)
    (ho : s.outcome = .fault r) (hpc : s.pc = r.pc0) : s.faultConsistent = true := by
  simp [State.faultConsistent, hs, ho, hpc]

theorem State.faultConsistent_of_running {s : State} (hs : s.status = .running) (ho : ∀ r, s.outcome ≠ .fault r) :
    s.faultConsistent = true := by
  rw [State.faultConsistent, hs]
  cases hout : s.outcome with
  | fault r => exact absurd hout (ho r)
  | _ => rfl

/-- In a consistent Faulted machine the last outcome is the recorded fault already. -/
theorem State.setOutcome_fault_of_consistent {s : State} {r : FaultRecord} (hc : s.faultConsistent = true)
    (hs : s.status = .faulted r) : s.setOutcome (.fault r) = s := by
  obtain ⟨v, i, pc, stack, fb, keys, dt, st, status, mem, outcome, draws, params⟩ := s
  obtain rfl : status = .faulted r := hs
  cases outcome with
  | fault r' =>
    obtain ⟨rfl, -⟩ : r = r' ∧ pc = r.pc0 := by simpa [State.faultConsistent] using hc
    rfl
  | _ => cases hc

theorem Effect.faultConsistent {s t : State} {j : Instr} (he : Effect s j t) (hs : s.Executing) :
    t.faultConsistent = true := by
  obtain ⟨r, hst, ho, hpc⟩ | ⟨hst, ho⟩ := he.status_outcome
  · exact State.faultConsistent_of_faulted hst ho hpc
  · exact State.faultConsistent_of_running (hst.trans hs.running) ho

theorem Effect.inv {s t : State} {j : Instr} (he : Effect s j t) (hs : s.Executing) : t.Inv :=
  ⟨he.mem_wf hs, he.stack_length_le hs, he.returnsOk hs, he.pc_le hs, he.faultConsistent hs⟩

/-! ## The other ends of a step -/

/-- A fetch fault leaves PC, the stack and the memory (60 R236). -/
theorem State.Inv.enterFault_fetch {s : State} (h : s.Inv) (e : FatalError) : (s.enterFault ⟨e, s.pc, none⟩).Inv := by
  obtain ⟨hwf, hdepth, hret, hpc, -⟩ := h
  exact ⟨hwf, hdepth, hret, hpc, State.faultConsistent_of_faulted rfl rfl rfl⟩

/-- An invalid word only advances PC (60 R235). -/
theorem State.Inv.advance_setOutcome {s : State} (h : s.Inv) (hrun : s.status = .running) (hf : s.fetchOk)
    {o : StepOutcome} (ho : ∀ r, o ≠ .fault r) : (s.advance.setOutcome o).Inv := by
  have hx := h.executing_advance hrun hf
  exact ⟨hx.wf, hx.depth, hx.returns, hx.pc.le.trans (by decide), State.faultConsistent_of_running hrun ho⟩

theorem step_inv {s t : State} (h : s.Inv) (hstep : step s = .next t) : t.Inv := by
  obtain ⟨r, hr, rfl⟩ | ⟨-, -, rfl⟩ | ⟨hrun, hf, o, ho, rfl⟩ | ⟨hrun, hf, j, -, hexec⟩ := step_cases s t hstep
  · have ⟨_, _, _, _, hc⟩ := h
    rwa [State.setOutcome_fault_of_consistent hc hr]
  · exact h.enterFault_fetch _
  · refine h.advance_setOutcome hrun hf ?_
    rintro r rfl
    simp at ho
  · exact (effect_of_exec hexec).inv (h.executing_advance hrun hf)

end Sys2Proof.Machine

/-! # What a reset leaves -/

namespace Sys2Proof.Machine

theorem unlisted_of_ge {a : Nat} (h : 80 ≤ a) : unlisted a = none := by
  rw [unlisted]
  exact Vector.getElem?_eq_none h

/-- Above the font, a byte of the blank memory is the free value `INIT_FILL`. -/
theorem Memory.read_blank_of_ge (k : Nat) {a : Nat} (h : 80 ≤ a) : (blankMemory k).read a = Config.initFill k a := by
  simp [Memory.read, Memory.peek, blankMemory, lookupCell, unlisted_of_ge h]

theorem State.resetMemory_fill (s : State) (image : List Byte) : (s.resetMemory image).fill = s.mem.fill + 1 := by
  simp [State.resetMemory, blankMemory]

/-- A byte after a reset: the image's, else the font's, else the blank memory's (70 R270, R271). -/
theorem State.read_resetMemory (s : State) (image : List Byte) (h : image.length ≤ 3584) (a : Nat) :
    (s.resetMemory image).read a =
      if 0x200 ≤ a ∧ a < 0x200 + image.length then (image[a - 0x200]?).getD 0
      else (s.params.fontData[a]?).getD ((blankMemory (s.mem.fill + 1)).read a) := by
  have hfont : 0 + s.params.fontData.toList.length ≤ memSize := by simp [memSize]
  have hwf := Memory.wf_writeBytes _ 0 s.params.fontData.toList (Memory.wf_blank (s.mem.fill + 1)) hfont
  rw [State.resetMemory, Memory.read_writeBytes _ progBase image a hwf (by simp only [progBase, memSize]; omega),
    Memory.read_writeBytes _ 0 _ a (Memory.wf_blank _) hfont]
  simp only [progBase, Nat.zero_le, if_true, Nat.sub_zero, Vector.getElem?_toList]
  by_cases hlow : 0x200 ≤ a
  · by_cases hhigh : a < 0x200 + image.length
    · have hk : a - 0x200 < image.length := by omega
      simp [hlow, hhigh, hk]
    · simp [hlow, hhigh, List.getElem?_eq_none (show image.length ≤ a - 0x200 by omega)]
  · simp [hlow]

theorem State.read_resetMemory_font (s : State) (image : List Byte) (h : image.length ≤ 3584) (a : Nat)
    (ha : a < 80) : (s.resetMemory image).read a = s.params.fontData[a] := by
  rw [s.read_resetMemory image h, if_neg (by omega)]
  simp [ha]

theorem State.read_resetMemory_image (s : State) (image : List Byte) (h : image.length ≤ 3584) (k : Nat)
    (hk : k < image.length) : (s.resetMemory image).read (0x200 + k) = image[k] := by
  rw [s.read_resetMemory image h, if_pos (by omega)]
  simp [hk]

theorem State.read_resetMemory_fill (s : State) (image : List Byte) (h : image.length ≤ 3584) (a : Nat)
    (ha : 80 ≤ a) (hout : a < 0x200 ∨ 0x200 + image.length ≤ a) :
    (s.resetMemory image).read a = Config.initFill (s.resetMemory image).fill a := by
  rw [s.read_resetMemory image h, if_neg (by omega), Vector.getElem?_eq_none ha, s.resetMemory_fill,
    Option.getD_none, Memory.read_blank_of_ge _ ha]

theorem State.resetWith_of_fits (s : State) (image : List Byte) (h : image.length ≤ 3584) :
    s.resetWith image = (s.afterReset image, .ok) :=
  if_neg (show ¬ 3584 < image.length by omega)

/-- An empty image over the default font lists nothing. -/
theorem State.resetMemory_nil (s : State) (h : s.params = defaultParams) :
    s.resetMemory [] = blankMemory (s.mem.fill + 1) := by
  have hfont : s.params.fontData = defaultFont := congrArg Params.fontData h
  rw [State.resetMemory, hfont, writeBytes_blank_font, Memory.writeBytes]

theorem State.reg_afterReset (s : State) (image : List Byte) (r : Reg) : (s.afterReset image).reg r = 0 := by
  simp [State.reg]

theorem State.pixel_afterReset (s : State) (image : List Byte) (px : Fin 64) (py : Fin 32) :
    (s.afterReset image).pixel px py = false :=
  pixelOf_clearFb px py

theorem State.key_afterReset (s : State) (image : List Byte) (k : Nat) : (s.afterReset image).key k = false := by
  by_cases h : k < 16 <;> simp [State.key, h]

end Sys2Proof.Machine

/-! # The obligations on the state (10_state.md) -/

namespace Sys2Proof.Proofs

open Sys2Proof.Machine

/-- Settles O5: by the cases of a step; an executed instruction is treated through the forms it can have. -/
theorem stepKeepsTheInvariant : Obligations.StepKeepsTheInvariant := fun _ _ => step_inv

/-- Settles O1: the registers and lists by the fields of `afterReset`, the memory by the read after the font and the
image were written. -/
theorem resetGivesTheListedState : Obligations.ResetGivesTheListedState := by
  intro s image h
  refine ⟨s.afterReset image, s.resetWith_of_fits image h, s.reg_afterReset image, rfl, rfl, rfl,
    s.pixel_afterReset image, s.key_afterReset image, rfl, rfl, rfl, s.read_resetMemory_font image h,
    s.read_resetMemory_image image h, ?_, rfl⟩
  rintro a (⟨hfont, hprog⟩ | ⟨himage, -⟩)
  · exact s.read_resetMemory_fill image h a hfont (.inl hprog)
  · exact s.read_resetMemory_fill image h a (by omega) (.inr himage)

/-- Settles O54. -/
theorem registerWriters : Obligations.RegisterWriters :=
  fun _ _ _ r h hne => ((effect_of_exec h).reg r).resolve_left hne

/-- Settles O55. -/
theorem indexRegisterWriters : Obligations.IndexRegisterWriters :=
  fun _ _ _ h hne => (effect_of_exec h).index.resolve_left hne

/-- Settles O56. -/
theorem stackWriters : Obligations.StackWriters := by
  intro j s t h hne
  obtain ⟨hcall, -, hst⟩ | ⟨hret, hst⟩ := (effect_of_exec h).stack.resolve_left hne
  · exact .inl ⟨hcall, hst⟩
  · exact .inr ⟨hret, t.pc, hst⟩

/-- Settles O57. -/
theorem framebufferWriters : Obligations.FramebufferWriters :=
  fun _ _ _ h hne => (effect_of_exec h).fb.resolve_left hne

/-- Settles O59. -/
theorem timerAndKeypadWriters : Obligations.TimerAndKeypadWriters := fun _ _ _ h =>
  have he := effect_of_exec h
  ⟨he.dt.resolve_left, he.st.resolve_left, he.keys, he.params⟩

/-- Settles O3: the default font is what an unlisted address holds, so a reset writes no cell. -/
theorem resetStateIsAnEmptyReset : Obligations.ResetStateIsAnEmptyReset := by
  intro s h
  rw [s.resetWith_of_fits [] (Nat.zero_le _), State.afterReset, s.resetMemory_nil h, h]
  rfl

/-- Settles O4. -/
theorem resetMeetsTheInvariant : Obligations.ResetMeetsTheInvariant :=
  ⟨State.wf_reset, Nat.zero_le _, fun _ h => absurd h List.not_mem_nil, by decide,
    State.faultConsistent_of_running rfl fun _ h => by cases h⟩

/-- Settles O19: the two clauses are the two cases of `fetchOk`. -/
theorem fetchFaultsOutsideTheFetchableSet : Obligations.FetchFaultsOutsideTheFetchableSet := by
  intro s
  refine ⟨fun heven hlow hhigh => s.fetch_of_fetchOk ⟨heven, hlow, hhigh⟩, fun hrun hout => ?_⟩
  have hf : ¬ s.fetchOk := by
    rintro ⟨heven, hlow, hhigh⟩
    omega
  refine ⟨_, step_not_fetchOk s hrun hf, rfl, rfl, fun p hp => ?_⟩
  by_cases hpc : p = .pc
  · subst hpc
    rfl
  · exact changesOnly_enterFault s _ p (by simpa [hpc] using hp)

end Sys2Proof.Proofs

/-! # What memory operations read back, and when two memories are the same -/

namespace Sys2Proof.Machine

/-! ## Canonical cells are determined by what is known -/

theorem cellsWf_cons {lo b : Nat} {w : Byte} {rest : List Host.Cell} :
    cellsWf lo ((b, w) :: rest) = true ↔
      lo ≤ b ∧ b < memSize ∧ unlisted b ≠ some w ∧ cellsWf (b + 1) rest = true := by
  simp [cellsWf, and_assoc]

theorem cellsWf_from_head {lo b : Nat} {w : Byte} {rest : List Host.Cell} (h : cellsWf lo ((b, w) :: rest) = true) :
    cellsWf b ((b, w) :: rest) = true :=
  cellsWf_cons.mpr ⟨Nat.le_refl b, (cellsWf_cons.mp h).2⟩

/-- The first cell lists what an unlisted address does not hold, so cells that begin above it disagree there. -/
theorem known_ne_of_head_lt {lo lo' b : Nat} {w : Byte} {rest cells' : List Host.Cell}
    (h : cellsWf lo ((b, w) :: rest) = true) (h' : cellsWf lo' cells' = true) (hb : b < lo') :
    (lookupCell b ((b, w) :: rest)).or (unlisted b) ≠ (lookupCell b cells').or (unlisted b) := by
  obtain ⟨-, -, hdiff, -⟩ := cellsWf_cons.mp h
  rw [lookupCell_eq_none_of_lt lo' b cells' h' hb]
  simpa [lookupCell] using Ne.symm hdiff

/-- Below a cell and at it nothing else is listed, so cells that share their first cell and agree also agree after it. -/
theorem known_tail_eq {b : Nat} {w : Byte} {rest rest' : List Host.Cell} (h : cellsWf (b + 1) rest = true)
    (h' : cellsWf (b + 1) rest' = true)
    (hk : ∀ a, (lookupCell a ((b, w) :: rest)).or (unlisted a) = (lookupCell a ((b, w) :: rest')).or (unlisted a))
    (a : Nat) : (lookupCell a rest).or (unlisted a) = (lookupCell a rest').or (unlisted a) := by
  by_cases hab : a = b
  · rw [lookupCell_eq_none_of_lt _ a rest h (by omega), lookupCell_eq_none_of_lt _ a rest' h' (by omega)]
  · simpa [lookupCell, hab] using hk a

theorem cells_eq_of_known_eq {lo : Nat} {cells cells' : List Host.Cell} (h : cellsWf lo cells = true)
    (h' : cellsWf lo cells' = true)
    (hk : ∀ a, (lookupCell a cells).or (unlisted a) = (lookupCell a cells').or (unlisted a)) : cells = cells' := by
  induction cells generalizing lo cells' with
  | nil =>
    cases cells' with
    | nil => rfl
    | cons c' rest' => exact absurd (hk c'.1).symm (known_ne_of_head_lt h' rfl (Nat.lt_succ_self _))
  | cons c rest ih =>
    obtain ⟨b, w⟩ := c
    cases cells' with
    | nil => exact absurd (hk b) (known_ne_of_head_lt h rfl (Nat.lt_succ_self _))
    | cons c' rest' =>
      obtain ⟨b', w'⟩ := c'
      obtain hlt | rfl | hgt := Nat.lt_trichotomy b b'
      · exact absurd (hk b) (known_ne_of_head_lt h (cellsWf_from_head h') hlt)
      · obtain rfl : w = w' := by simpa [lookupCell] using hk b
        obtain ⟨-, -, -, htail⟩ := cellsWf_cons.mp h
        obtain ⟨-, -, -, htail'⟩ := cellsWf_cons.mp h'
        rw [ih htail htail' (known_tail_eq htail htail' hk)]
      · exact absurd (hk b').symm (known_ne_of_head_lt h' (cellsWf_from_head h) hgt)

/-! ## Reads after a store -/

/-- A byte that a store changed is one of those stored. -/
theorem Memory.mem_range_of_read_writeBytes_ne (m : Memory) (base : Nat) (bytes : List Byte) (a : Nat)
    (h : m.wf = true) (hb : base + bytes.length ≤ memSize) (hne : (m.writeBytes base bytes).read a ≠ m.read a) :
    base ≤ a ∧ a < base + bytes.length := by
  by_contra hout
  exact hne (m.read_writeBytes_outside base bytes a h hb (by omega))

/-- A stored byte is read back. -/
theorem Memory.read_writeBytes_add (m : Memory) (base : Nat) (bytes : List Byte) (k : Nat) (h : m.wf = true)
    (hb : base + bytes.length ≤ memSize) (hk : k < bytes.length) :
    (m.writeBytes base bytes).read (base + k) = bytes[k] := by
  simp [m.read_writeBytes base bytes _ h hb, hk]

theorem State.regsUpTo_getElem (s : State) (x : Reg) (k : Nat) (hk : k < (s.regsUpTo x).length) :
    (s.regsUpTo x)[k] = s.reg (BitVec.ofNat 4 k) := by
  simp [State.regsUpTo]

/-- A dump-regs whose range is below `MEM_LIMIT` stores V0 to V[x] from I on (42 R186). -/
theorem mem_of_exec_dumpRegs {x : Reg} {s t : State} (hlim : s.base + x.toNat < s.params.memLimit.toNat)
    (h : exec (.dumpRegs x) s = .next t) : t.mem = s.mem.writeBytes s.base (s.regsUpTo x) := by
  change s.checked (.dumpRegs x) (s.rangeError .write s.base (regCount x)) _ = .next t at h
  rw [(s.rangeError_none .write s.base (regCount x)).mpr (.inr hlim)] at h
  cases h
  rfl

/-- After such a dump-regs, the byte at I + k is V[k]. -/
theorem read_of_exec_dumpRegs {x : Reg} {s t : State} (hwf : s.mem.wf = true)
    (hlim : s.base + x.toNat < s.params.memLimit.toNat) (h : exec (.dumpRegs x) s = .next t) {k : Nat}
    (hk : k ≤ x.toNat) : t.mem.read (s.base + k) = s.reg (BitVec.ofNat 4 k) := by
  have hlen : (s.regsUpTo x).length = x.toNat + 1 := s.regsUpTo_length x
  have hmem := memLimit_le s.params.memLimit
  rw [mem_of_exec_dumpRegs hlim h, s.mem.read_writeBytes_add _ _ k hwf (by omega) (by omega), s.regsUpTo_getElem]

/-- The word a fetch from address `a` reads (20 R66). -/
theorem State.wordAtPc_setPc (s : State) {a : Nat} (ha : a < 2 ^ 16) :
    (s.setPc (BitVec.ofNat 16 a)).wordAtPc = wordOf (s.mem.read a) (s.mem.read (a + 1)) := by
  rw [State.wordAtPc, State.setPc_pc, State.setPc_mem, BitVec.toNat_ofNat, Nat.mod_eq_of_lt ha]

end Sys2Proof.Machine

/-! # The obligations on memory (20_memory.md) -/

namespace Sys2Proof.Proofs

open Sys2Proof.Machine

/-- Settles O27: both bytes of the word are among those dump-regs stored. -/
theorem nextFetchSeesTheStore : Obligations.NextFetchSeesTheStore := by
  intro x s t k hwf hlim h hk
  have hmem : s.params.memLimit.toNat ≤ 0x1000 := memLimit_le _
  rw [t.wordAtPc_setPc (by omega), read_of_exec_dumpRegs hwf hlim h (by omega), Nat.add_assoc,
    read_of_exec_dumpRegs hwf hlim h hk]

/-- Settles O28, by induction on the cells of both memories: at the lower of two different first addresses, only one
memory lists a byte. -/
theorem canonicalMemoriesAreEqual : Obligations.CanonicalMemoriesAreEqual := by
  rintro ⟨fill, cells⟩ ⟨fill', cells'⟩ hwf hwf' rfl hk
  exact congrArg (Memory.mk fill) (cells_eq_of_known_eq hwf hwf' hk)

/-- Settles O58: the forms of an instruction leave the memory or store bytes from I on, and a store changes no other
byte. -/
theorem memoryWriters : Obligations.MemoryWriters := by
  intro j s t a hwf h hne
  obtain hm | ⟨bytes, hm, hlim, hj⟩ := (effect_of_exec h).mem
  · exact absurd (congrArg (Memory.read · a) hm) hne
  rw [hm] at hne
  obtain ⟨hlow, hhigh⟩ :=
    s.mem.mem_range_of_read_writeBytes_ne s.base bytes a hwf (hlim.trans (memLimit_le _)) hne
  refine ⟨by omega, hlow, ?_⟩
  obtain ⟨hx, hlen⟩ | ⟨x, hx, hlen⟩ := hj
  · exact .inl ⟨hx, by omega⟩
  · rw [regCount] at hlen
    exact .inr ⟨x, hx, by omega⟩

end Sys2Proof.Proofs

/-! # What the decoder does with each word, said once

A word of one of the families 0, 8, E and F is valid when its second level names an instruction (`ValidWord`);
`decodesWhen_decodeWord` says what the dispatcher answers in either case, and `not_validWord_iff` ties `ValidWord` to
the list of 30_encoding.md R101. -/

namespace Sys2Proof

/-! ## A word is made of its fields -/

theorem wordFA_fieldsOf {w : Word} {op : BitVec 4} (h : (fieldsOf w).op = op) : wordFA op (fieldsOf w).nnn = w := by
  apply BitVec.eq_of_toNat_eq
  rw [toNat_FA, ← h, toNat_field_op, toNat_field_nnn]
  omega

theorem wordFXK_fieldsOf {w : Word} {op : BitVec 4} (h : (fieldsOf w).op = op) :
    wordFXK op (fieldsOf w).x (fieldsOf w).nn = w := by
  apply BitVec.eq_of_toNat_eq
  rw [toNat_FXK, ← h, toNat_field_op, toNat_field_x, toNat_field_nn]
  omega

theorem wordFXYN_fieldsOf {w : Word} {op : BitVec 4} (h : (fieldsOf w).op = op) :
    wordFXYN op (fieldsOf w).x (fieldsOf w).y (fieldsOf w).n = w := by
  apply BitVec.eq_of_toNat_eq
  rw [toNat_FXYN, ← h, toNat_field_op, toNat_field_x, toNat_field_y, toNat_field_n]
  omega

theorem wordOf_highByte_lowByte (w : Word) : wordOf (highByte w) (lowByte w) = w := by
  apply BitVec.eq_of_toNat_eq
  rw [wordOf, toNat_append_add]
  simp only [highByte, lowByte, BitVec.extractLsb'_toNat, Nat.shiftRight_eq_div_pow]
  omega

theorem fieldsOf_nnn_eq_append (w : Word) : (fieldsOf w).nnn = (fieldsOf w).x ++ (fieldsOf w).nn := by
  apply BitVec.eq_of_toNat_eq
  rw [toNat_append_add, toNat_field_nnn, toNat_field_x, toNat_field_nn]
  omega

theorem fieldsOf_nn_eq_append (w : Word) : (fieldsOf w).nn = (fieldsOf w).y ++ (fieldsOf w).n := by
  apply BitVec.eq_of_toNat_eq
  rw [toNat_append_add, toNat_field_nn, toNat_field_y, toNat_field_n]
  omega

/-! ## Valid words -/

/-- The words of family 0 that name an instruction (30 R98). -/
def codes0 : List Word := [0x00E0, 0x00EE]

/-- The values of `n` that name an instruction of family 8. -/
def codes8 : List Nibble := [0x0, 0x1, 0x2, 0x3, 0x4, 0x5, 0x6, 0x7, 0xE]

/-- The values of `nn` that name an instruction of family E. -/
def codesE : List Byte := [0x9E, 0xA1]

/-- The values of `nn` that name an instruction of family F. -/
def codesF : List Byte := [0x07, 0x0A, 0x15, 0x18, 0x1E, 0x29, 0x33, 0x55, 0x65]

/-- In a family with a second level (30 R98), that level names an instruction. -/
def ValidWord (w : Word) : Prop :=
  ((fieldsOf w).op = 0x0 → w ∈ codes0) ∧ ((fieldsOf w).op = 0x8 → (fieldsOf w).n ∈ codes8) ∧
  ((fieldsOf w).op = 0xE → (fieldsOf w).nn ∈ codesE) ∧ ((fieldsOf w).op = 0xF → (fieldsOf w).nn ∈ codesF)

theorem validWord_iff_of_op0 {w : Word} (h : (fieldsOf w).op = 0x0) : ValidWord w ↔ w ∈ codes0 := by
  simp [ValidWord, h]

theorem validWord_iff_of_op8 {w : Word} (h : (fieldsOf w).op = 0x8) : ValidWord w ↔ (fieldsOf w).n ∈ codes8 := by
  simp [ValidWord, h]

theorem validWord_iff_of_opE {w : Word} (h : (fieldsOf w).op = 0xE) : ValidWord w ↔ (fieldsOf w).nn ∈ codesE := by
  simp [ValidWord, h]

theorem validWord_iff_of_opF {w : Word} (h : (fieldsOf w).op = 0xF) : ValidWord w ↔ (fieldsOf w).nn ∈ codesF := by
  simp [ValidWord, h]

/-- Every word of another family is valid. -/
theorem validWord_of_op {w : Word} {op : BitVec 4} (h : (fieldsOf w).op = op) (hop : op ∉ [0x0, 0x8, 0xE, 0xF]) :
    ValidWord w := by
  simp only [List.mem_cons, List.not_mem_nil, or_false, not_or, ← h] at hop
  obtain ⟨h0, h8, hE, hF⟩ := hop
  exact ⟨(absurd · h0), (absurd · h8), (absurd · hE), (absurd · hF)⟩

/-- 30 R101, each family by the value of the word. -/
theorem not_validWord_iff (w : Word) : ¬ ValidWord w ↔
    (w.toNat ≤ 0x0FFF ∧ w.toNat ≠ 0x00E0 ∧ w.toNat ≠ 0x00EE) ∨
    (w.toNat / 4096 = 0x8 ∧ w.toNat % 16 ∈ [0x8, 0x9, 0xA, 0xB, 0xC, 0xD, 0xF]) ∨
    (w.toNat / 4096 = 0xE ∧ w.toNat % 256 ∉ [0x9E, 0xA1]) ∨
    (w.toNat / 4096 = 0xF ∧ w.toNat % 256 ∉ [0x07, 0x0A, 0x15, 0x18, 0x1E, 0x29, 0x33, 0x55, 0x65]) := by
  have hw := w.isLt
  simp only [ValidWord, codes0, codes8, codesE, codesF, List.mem_cons, List.not_mem_nil, or_false, ← BitVec.toNat_inj,
    toNat_field_op, toNat_field_n, toNat_field_nn, BitVec.reduceToNat]
  omega

/-! ## What the dispatcher answers -/

/-- The answer for a word: an instruction whose word it is, when the word is valid, and InvalidOpcode when it is not. -/
def DecodesWhen (valid : Prop) (w : Word) (answer : Except DecodeError Instr) : Prop :=
  (valid ∧ ∃ j, answer = .ok j ∧ encode j = w) ∨ (¬ valid ∧ answer = .error (.invalidOpcode w))

/-- A row without a second level. -/
theorem decodesWhen_ok {valid : Prop} {w : Word} {j : Instr} (hvalid : valid) (hj : encode j = w) :
    DecodesWhen valid w (.ok j) := .inl ⟨hvalid, j, rfl, hj⟩

/-- The end of a second level: no code is left. -/
theorem decodesWhen_nil {α : Type} (k : α) (w : Word) : DecodesWhen (k ∈ []) w (.error (.invalidOpcode w)) :=
  .inr ⟨List.not_mem_nil, rfl⟩

/-- One test of a second level: `word k` is the word, so it is the word of `j` when `k` is the code of `j`. -/
theorem DecodesWhen.cons {α : Type} [DecidableEq α] {word : α → Word} {w : Word} {k code : α} {codes : List α}
    {j : Instr} {answer : Except DecodeError Instr} (hw : word k = w) (hj : encode j = word code)
    (hrest : DecodesWhen (k ∈ codes) w answer) :
    DecodesWhen (k ∈ code :: codes) w (if k = code then .ok j else answer) := by
  by_cases hk : k = code
  · rw [if_pos hk]
    exact decodesWhen_ok (hk ▸ List.mem_cons_self) (hj.trans (hk ▸ hw))
  · rw [if_neg hk]
    simpa [DecodesWhen, hk] using hrest

theorem decodesWhen_family0 (w : Word) : DecodesWhen (w ∈ codes0) w (decodeFamily0 w) :=
  .cons (word := id) rfl rfl <| .cons (word := id) rfl rfl <| decodesWhen_nil w w

theorem decodesWhen_family8 {w : Word} {f : Fields} (hw : wordFXYN 0x8 f.x f.y f.n = w) :
    DecodesWhen (f.n ∈ codes8) w (decodeFamily8 w f) :=
  .cons hw rfl <| .cons hw rfl <| .cons hw rfl <| .cons hw rfl <| .cons hw rfl <| .cons hw rfl <| .cons hw rfl <|
    .cons hw rfl <| .cons hw rfl <| decodesWhen_nil f.n w

theorem decodesWhen_familyE {w : Word} {f : Fields} (hw : wordFXK 0xE f.x f.nn = w) :
    DecodesWhen (f.nn ∈ codesE) w (decodeFamilyE w f) :=
  .cons hw rfl <| .cons hw rfl <| decodesWhen_nil f.nn w

theorem decodesWhen_familyF {w : Word} {f : Fields} (hw : wordFXK 0xF f.x f.nn = w) :
    DecodesWhen (f.nn ∈ codesF) w (decodeFamilyF w f) :=
  .cons hw rfl <| .cons hw rfl <| .cons hw rfl <| .cons hw rfl <| .cons hw rfl <| .cons hw rfl <| .cons hw rfl <|
    .cons hw rfl <| .cons hw rfl <| decodesWhen_nil f.nn w

theorem decodesWhen_decodeWord (w : Word) : DecodesWhen (ValidWord w) w (decodeWord w) := by
  simp only [decodeWord]
  split
  case h_1 hop =>
    rw [validWord_iff_of_op0 hop]
    exact decodesWhen_family0 w
  case h_9 hop =>
    rw [validWord_iff_of_op8 hop]
    exact decodesWhen_family8 (wordFXYN_fieldsOf hop)
  case h_15 hop =>
    rw [validWord_iff_of_opE hop]
    exact decodesWhen_familyE (wordFXK_fieldsOf hop)
  case h_16 hop =>
    rw [validWord_iff_of_opF hop]
    exact decodesWhen_familyF (wordFXK_fieldsOf hop)
  case h_2 hop | h_3 hop | h_11 hop | h_12 hop =>
    exact decodesWhen_ok (validWord_of_op hop (by decide)) (wordFA_fieldsOf hop)
  case h_4 hop | h_5 hop | h_7 hop | h_8 hop | h_13 hop =>
    exact decodesWhen_ok (validWord_of_op hop (by decide)) (wordFXK_fieldsOf hop)
  case h_6 hop | h_10 hop | h_14 hop =>
    exact decodesWhen_ok (validWord_of_op hop (by decide)) (wordFXYN_fieldsOf hop)
  -- The last arm is never reached: no nibble is left.
  case h_17 =>
    exfalso
    generalize (fieldsOf w).op = op at *
    revert op
    decide

end Sys2Proof

/-! # The decode map of R100

Two rows never share a word, a row takes only valid words, and every instruction's word is on a row that reads it back:
so the map and the dispatcher agree. -/

namespace Sys2Proof

/-! ## At most one row -/

/-- Any two rows differ in a bit that both masks keep. -/
theorem tableRows_disjoint : tableRows.Pairwise fun r r' => r.bits &&& r'.mask ≠ r'.bits &&& r.mask := by
  decide

theorem and_mask_of_rowMatches {w : Word} {r : TableRow} (h : rowMatches w r = true) : w &&& r.mask = r.bits :=
  of_decide_eq_true h

theorem bits_agree_of_rowMatches {w : Word} {r r' : TableRow} (h : rowMatches w r = true)
    (h' : rowMatches w r' = true) : r.bits &&& r'.mask = r'.bits &&& r.mask := by
  rw [← and_mask_of_rowMatches h, ← and_mask_of_rowMatches h', BitVec.and_assoc, BitVec.and_assoc,
    BitVec.and_comm r.mask]

theorem length_filter_rowMatches_le_one (w : Word) : (tableRows.filter (rowMatches w)).length ≤ 1 := by
  have hpair := tableRows_disjoint.filter (rowMatches w)
  have hmatch : ∀ r ∈ tableRows.filter (rowMatches w), rowMatches w r = true :=
    fun r hr => (List.mem_filter.mp hr).2
  match hl : tableRows.filter (rowMatches w) with
  | [] => exact Nat.zero_le 1
  | [r] => exact Nat.le_refl 1
  | r :: r' :: rest =>
    rw [hl] at hpair hmatch
    exact absurd (bits_agree_of_rowMatches (hmatch r (by simp)) (hmatch r' (by simp)))
      (List.rel_of_pairwise_cons hpair (by simp))

theorem eq_of_rowMatches {w : Word} {r r' : TableRow} (hr : r ∈ tableRows) (hr' : r' ∈ tableRows)
    (h : rowMatches w r = true) (h' : rowMatches w r' = true) : r = r' := by
  have : Std.Symm fun r r' : TableRow => r.bits &&& r'.mask ≠ r'.bits &&& r.mask := ⟨fun _ _ => Ne.symm⟩
  by_contra hne
  exact tableRows_disjoint.forall hr hr' hne (bits_agree_of_rowMatches h h')

/-- A row that a word matches is what the map gives. -/
theorem tableDecode_of_rowMatches {w : Word} {r : TableRow} (hr : r ∈ tableRows) (h : rowMatches w r = true) :
    tableDecode w = some (r.build (fieldsOf w)) := by
  obtain ⟨r', hfind⟩ := Option.isSome_iff_exists.mp (List.find?_isSome.mpr ⟨r, hr, h⟩)
  rw [tableDecode, hfind, eq_of_rowMatches hr (List.mem_of_find?_eq_some hfind) h (List.find?_some hfind)]
  rfl

/-! ## The map on the word of an instruction -/

theorem exists_row_of_encode (j : Instr) : Laws.EncodedRow.Statement j :=
  open Laws.EncodedRow in
  j.casesOn clearScreen ret jump call skipEqImm skipNeqImm skipEqReg skipNeqReg setImm addImm setReg orReg andReg xorReg
    addReg subReg shiftRight subnReg shiftLeft setI jumpV0 random draw skipIfKey skipIfNotKey getDelay waitKey setDelay
    setSound addI setIToGlyph storeBcd dumpRegs loadRegs

theorem tableDecode_encode (j : Instr) : tableDecode (encode j) = some j := by
  obtain ⟨r, hr, hmatch, hbuild⟩ := exists_row_of_encode j
  rw [tableDecode_of_rowMatches hr hmatch, hbuild]

/-! ## The map on an invalid word -/

/-- A mask keeps a field that it covers whole. -/
theorem extractLsb'_eq_of_and_eq {w mask bits : Word} {start len : Nat} (h : w &&& mask = bits)
    (hmask : mask.extractLsb' start len = BitVec.allOnes len) :
    w.extractLsb' start len = bits.extractLsb' start len := by
  rw [← h, BitVec.extractLsb'_and, hmask, BitVec.and_allOnes]

/-- The rows of the table test the family nibble, and in the families with a second level the code too, which is one
of the family's. -/
theorem tableRows_test : ∀ r ∈ tableRows, (fieldsOf r.mask).op = 0xF ∧
    ((fieldsOf r.bits).op = 0x0 → r.mask = 0xFFFF ∧ r.bits ∈ codes0) ∧
    ((fieldsOf r.bits).op = 0x8 → (fieldsOf r.mask).n = 0xF ∧ (fieldsOf r.bits).n ∈ codes8) ∧
    ((fieldsOf r.bits).op = 0xE → (fieldsOf r.mask).nn = 0xFF ∧ (fieldsOf r.bits).nn ∈ codesE) ∧
    ((fieldsOf r.bits).op = 0xF → (fieldsOf r.mask).nn = 0xFF ∧ (fieldsOf r.bits).nn ∈ codesF) := by
  decide

theorem validWord_of_rowMatches {w : Word} {r : TableRow} (hr : r ∈ tableRows) (h : rowMatches w r = true) :
    ValidWord w := by
  have hand := and_mask_of_rowMatches h
  obtain ⟨hmask, h0, h8, hE, hF⟩ := tableRows_test r hr
  have hop : (fieldsOf w).op = (fieldsOf r.bits).op := extractLsb'_eq_of_and_eq hand hmask
  rw [← hop] at h0 h8 hE hF
  refine ⟨fun hw => ?_, fun hw => ?_, fun hw => ?_, fun hw => ?_⟩
  · obtain ⟨hm, hc⟩ := h0 hw
    rw [hm, and_FFFF] at hand
    exact hand ▸ hc
  · obtain ⟨hm, hc⟩ := h8 hw
    have hn : (fieldsOf w).n = (fieldsOf r.bits).n := extractLsb'_eq_of_and_eq hand hm
    exact hn ▸ hc
  · obtain ⟨hm, hc⟩ := hE hw
    have hnn : (fieldsOf w).nn = (fieldsOf r.bits).nn := extractLsb'_eq_of_and_eq hand hm
    exact hnn ▸ hc
  · obtain ⟨hm, hc⟩ := hF hw
    have hnn : (fieldsOf w).nn = (fieldsOf r.bits).nn := extractLsb'_eq_of_and_eq hand hm
    exact hnn ▸ hc

theorem tableDecode_of_not_validWord {w : Word} (h : ¬ ValidWord w) : tableDecode w = none := by
  rw [tableDecode, List.find?_eq_none.mpr fun r hr hmatch => h (validWord_of_rowMatches hr hmatch)]
  rfl

/-! ## The map and the dispatcher agree -/

theorem encode_of_decodeWord {w : Word} {j : Instr} (h : decodeWord w = .ok j) : encode j = w := by
  obtain ⟨-, j', hok, hj'⟩ | ⟨-, herr⟩ := decodesWhen_decodeWord w
  · cases h.symm.trans hok
    exact hj'
  · cases h.symm.trans herr

theorem decodeWord_eq_error_iff (w : Word) : decodeWord w = .error (.invalidOpcode w) ↔ ¬ ValidWord w := by
  obtain ⟨hvalid, j, hok, -⟩ | ⟨hinvalid, herr⟩ := decodesWhen_decodeWord w
  · simp [hok, hvalid]
  · simp [herr, hinvalid]

theorem decodeWord_eq_tableDecode (w : Word) :
    decodeWord w = (tableDecode w).elim (.error (.invalidOpcode w)) .ok := by
  obtain ⟨-, j, hok, rfl⟩ | ⟨hinvalid, herr⟩ := decodesWhen_decodeWord w
  · rw [hok, tableDecode_encode]
    rfl
  · rw [herr, tableDecode_of_not_validWord hinvalid]
    rfl

theorem decodeWord_encode (j : Instr) : decodeWord (encode j) = .ok j := by
  rw [decodeWord_eq_tableDecode, tableDecode_encode]
  rfl

theorem decode_encodeBytes_append (j : Instr) (rest : List Byte) : decode (encodeBytes j ++ rest) = .ok (j, rest) := by
  rw [encodeBytes, List.cons_append, List.cons_append, List.nil_append, decode, wordOf_highByte_lowByte,
    decodeWord_encode]
  rfl

end Sys2Proof

/-! # Assembling what the disassembler wrote -/

namespace Sys2Proof

/-- The instruction with its ignored bits 0 (R104, column "bits the assembler fills"). -/
def Instr.clearIgnored : Instr → Instr
  | .skipEqReg x y _ => .skipEqReg x y 0
  | .skipNeqReg x y _ => .skipNeqReg x y 0
  | .shiftRight x _ => .shiftRight x 0
  | .shiftLeft x _ => .shiftLeft x 0
  | j => j

theorem Instr.clearIgnored_eq_self_iff (j : Instr) : j.clearIgnored = j ↔ j.canonical = true := by
  cases j with
  | skipEqReg | skipNeqReg | shiftRight | shiftLeft =>
    simp only [clearIgnored, canonical, Instr.skipEqReg.injEq, Instr.skipNeqReg.injEq, Instr.shiftRight.injEq,
      Instr.shiftLeft.injEq, true_and, decide_eq_true_eq]
    exact eq_comm
  | _ => exact iff_of_true rfl rfl

@[simp] theorem asmReg_toNat (x : Reg) : asmReg x.toNat = x := by
  simp [asmReg]

@[simp] theorem resolveAddr_lit_toNat (labels : List (String × Nat)) (nnn : Addr) :
    resolveAddr labels (.lit nnn.toNat) = .ok nnn := by
  simp [resolveAddr]

/-! The operands of a disassembled line have the widths of the fields they come from. -/

@[simp] theorem AsmOperand.wellFormed_reg_toNat (x : Reg) : (AsmOperand.reg x.toNat).wellFormed = true :=
  decide_eq_true (Nat.le_of_lt_succ x.isLt)

@[simp] theorem AsmOperand.wellFormed_nn_toNat (nn : Byte) : (AsmOperand.nn nn.toNat).wellFormed = true :=
  decide_eq_true (Nat.le_of_lt_succ nn.isLt)

@[simp] theorem AsmOperand.wellFormed_n_toNat (n : Nibble) : (AsmOperand.n n.toNat).wellFormed = true :=
  decide_eq_true (Nat.le_of_lt_succ n.isLt)

@[simp] theorem AsmOperand.wellFormed_nnn_toNat (nnn : Addr) : (AsmOperand.nnn (.lit nnn.toNat)).wellFormed = true :=
  decide_eq_true (Nat.le_of_lt_succ nnn.isLt)

@[simp] theorem AsmOperand.wellFormed_nnnPlusV0_toNat (nnn : Addr) :
    (AsmOperand.nnnPlusV0 (.lit nnn.toNat)).wellFormed = true := decide_eq_true (Nat.le_of_lt_succ nnn.isLt)

@[simp] theorem AsmOperand.wellFormed_indexReg : AsmOperand.indexReg.wellFormed = true := rfl

theorem wellFormed_disassemble (j : Instr) : (disassemble j).wellFormed = true := by
  cases j <;> simp [disassemble, AsmLine.wellFormed]

theorem assembleForm_disassemble (labels : List (String × Nat)) (j : Instr) :
    assembleForm labels (disassemble j) = .ok j.clearIgnored := by
  cases j with
  | clearScreen | ret => rfl
  | jump | call | setI | jumpV0 => simp [disassemble, assembleForm, Except.map, Instr.clearIgnored]
  | skipEqImm | skipNeqImm | setImm | addImm | random =>
    simp [disassemble, assembleForm, assembleRegImm, Instr.clearIgnored]
  | draw => simp [disassemble, assembleForm, Instr.clearIgnored]
  | _ => simp [disassemble, assembleForm, assembleRegs, Instr.clearIgnored]

theorem assemble_disassemble (labels : List (String × Nat)) (j : Instr) :
    assemble labels (disassemble j) = .ok j.clearIgnored := by
  rw [assemble, if_pos (wellFormed_disassemble j), assembleForm_disassemble]

/-- An assembler refuses a line with an operand out of range (R105). -/
theorem assemble_of_not_wellFormed (labels : List (String × Nat)) {l : AsmLine} (h : l.wellFormed = false) :
    assemble labels l = .error .outOfRange := by
  simp [assemble, h]

end Sys2Proof

/-! # The obligations on the encoding (30_encoding.md) -/

namespace Sys2Proof.Proofs

open Sys2Proof.Machine

/-- Settles O9: an instruction's word is on a row of the decode map that reads it back, no other row takes the word, and
the dispatcher agrees with the map. -/
theorem decodeEncodeRoundTrip : Obligations.DecodeEncodeRoundTrip := decodeWord_encode

/-- Settles O10: each arm of the dispatcher answers an instruction made of the word's own fields. -/
theorem encodeDecodeRoundTrip : Obligations.EncodeDecodeRoundTrip := fun _ _ => encode_of_decodeWord

/-- Settles O11: two rows differ in a bit both test; a valid word is the word of an instruction, which is on a row, and
an invalid word is on none. -/
theorem dispatcherAgreesWithDecodeMap : Obligations.DispatcherAgreesWithDecodeMap := by
  refine fun w => ⟨length_filter_rowMatches_le_one w, ?_⟩
  rw [decodeWord_eq_tableDecode]
  cases tableDecode w <;> rfl

/-- Settles O12. -/
theorem invalidWordsAreExactlyThese : Obligations.InvalidWordsAreExactlyThese :=
  fun w => (decodeWord_eq_error_iff w).trans (not_validWord_iff w)

/-- Settles O16: assembling a source line gives the instruction with its ignored bits 0. -/
theorem assemblerInvertsDisassembler : Obligations.AssemblerInvertsDisassembler := by
  refine ⟨fun labels j => ?_, fun labels _ => assemble_of_not_wellFormed labels⟩
  rw [assemble_disassemble, Except.ok.injEq, j.clearIgnored_eq_self_iff]

/-- Settles O13: the masks are remainders, and the overlaps hold of the values. -/
theorem fieldsAreMaskedBits : Obligations.FieldsAreMaskedBits := by
  intro w
  refine ⟨?_, ?_, ?_, ?_, ?_, ?_, fieldsOf_nnn_eq_append w, fieldsOf_nn_eq_append w⟩
  · rw [toNat_field_op, Nat.shiftRight_eq_div_pow]
  · rw [toNat_field_x, Nat.shiftRight_eq_div_pow, Nat.and_two_pow_sub_one_eq_mod _ 4]
  · rw [toNat_field_y, Nat.shiftRight_eq_div_pow, Nat.and_two_pow_sub_one_eq_mod _ 4]
  · rw [toNat_field_n, Nat.and_two_pow_sub_one_eq_mod _ 4]
  · rw [toNat_field_nn, Nat.and_two_pow_sub_one_eq_mod _ 8]
  · rw [toNat_field_nnn, Nat.and_two_pow_sub_one_eq_mod _ 12]

/-- Settles O14: the six valid words are the words of these instructions; the dispatcher runs on the two others. -/
theorem specWordsDecode : Obligations.SpecWordsDecode :=
  ⟨decodeWord_encode (.draw 1 2 15), decodeWord_encode .clearScreen, decodeWord_encode (.shiftRight 0xA 5),
    decodeWord_encode (.skipEqReg 2 3 1), decodeWord_encode (.skipIfNotKey 0), decodeWord_encode (.loadRegs 0),
    rfl, rfl⟩

/-- Settles O15: the value of an append, and the word put together again from its bytes. -/
theorem bytesAreBigEndian : Obligations.BytesAreBigEndian :=
  ⟨fun _ => BitVec.toNat_append _ _, decode_encodeBytes_append⟩

/-- Settles O17. -/
theorem stepRunsTheDecodedInstruction : Obligations.StepRunsTheDecodedInstruction :=
  fun s j hrun hfetch hdec => ⟨step_exec s j hrun hfetch hdec, rfl, changesOnly_setPc s _, rfl⟩

end Sys2Proof.Proofs

/-! # What the arithmetic and logic instructions do

An instruction's row of 30_encoding.md R100 is read off its format; its frame is that of the register writes it is made
of; a flag and a result together are `FlaggedResult` (`flaggedResult_writeFlagged`); and the flags and results are those
of the exact sums and differences of 40_arith_logic.md R130. -/

namespace Sys2Proof.Machine

/-! ## An instruction's row of R100 -/

theorem encodedAs_of_op {j : Instr} {op : BitVec 4} (hop : (fieldsOf (encode j)).op = op) :
    EncodedAs j (wordFA op 0) 0xF000 :=
  ⟨hop ▸ and_F000 (encode j), decodeWord_encode j⟩

theorem encodedAs_of_op_n {j : Instr} {op : BitVec 4} {n : Nibble} (hop : (fieldsOf (encode j)).op = op)
    (hn : (fieldsOf (encode j)).n = n) : EncodedAs j (wordFXYN op 0 0 n) 0xF00F :=
  ⟨hop ▸ hn ▸ and_F00F (encode j), decodeWord_encode j⟩

/-- The rows `oooo xxxx kkkk kkkk` whose second level is empty. -/
theorem encodedAs_FXK {j : Instr} {op : BitVec 4} {x : Reg} {nn : Byte} {bits : Word}
    (hj : encode j = wordFXK op x nn) (hbits : wordFA op 0 = bits) : EncodedAs j bits 0xF000 :=
  hbits ▸ encodedAs_of_op (hj ▸ (fieldsOf_FXK op x nn).1)

/-- The rows `oooo xxxx yyyy ffff`. -/
theorem encodedAs_FXY {j : Instr} {op : BitVec 4} {x y : Reg} {n : Nibble} {bits : Word}
    (hj : encode j = wordFXYN op x y n) (hbits : wordFXYN op 0 0 n = bits) : EncodedAs j bits 0xF00F := by
  obtain ⟨hop, -, -, hn⟩ := fieldsOf_FXYN op x y n
  exact hbits ▸ encodedAs_of_op_n (hj ▸ hop) (hj ▸ hn)

/-! ## Frames of updates in a row -/

theorem changesOnly_drawn (s : State) : ChangesOnly s s.drawn (among [.draws]) := by
  intro p hp
  cases p with
  | draws => simp at hp
  | _ => rfl

/-- A further update keeps the frame when the pieces it changes are allowed. -/
theorem ChangesOnly.andThen {s t u : State} {allowed : Piece → Prop} {l : List Piece} (h : ChangesOnly s t allowed)
    (h' : ChangesOnly t u (among l)) (hl : ∀ p ∈ l, allowed p) : ChangesOnly s u allowed :=
  h.trans s t u allowed (h'.mono t u _ allowed hl)

theorem changesOnly_setReg_done (s : State) (x : Reg) (b : Byte) (o : StepOutcome) :
    ChangesOnly s ((s.setReg x b).setOutcome o) (among [.reg x, .outcome]) :=
  (ChangesOnly.refl s _).andThen (changesOnly_setReg s x b) (by simp) |>.andThen (changesOnly_setOutcome _ o) (by simp)

/-- An instruction that writes one register and ends with `Ok`. -/
theorem completes_setReg {j : Instr} {s : State} {x : Reg} {b : Byte} {P : Byte → Prop}
    (hexec : exec j s = (s.setReg x b).done false) (hb : P b) :
    Completes j s fun t => P (t.reg x) ∧ t.outcome = .ok false ∧ ChangesOnly s t (among [.reg x, .outcome]) :=
  ⟨_, hexec, by simpa using hb, rfl, changesOnly_setReg_done s x b _⟩

/-! ## A flag and a result -/

/-- The flag goes to VF before the result goes to V[x], so with x = 15 the result wins, unless the mode leaves VF free
(40 R131). -/
theorem flaggedResult_writeFlagged (s : State) (x : Reg) (flag result : Byte) :
    FlaggedResult s ((s.writeFlagged x flag result).setOutcome (.ok false)) x flag result := by
  refine ⟨rfl, ?_⟩
  obtain ⟨hx, hany, hw⟩ | ⟨hwins, hw⟩ := s.writeFlagged_cases x flag result <;> rw [hw]
  · refine ⟨fun h => ?_, fun _ _ => ?_⟩
    · simp [hx, hany] at h
    · exact (ChangesOnly.refl s _).andThen (changesOnly_setReg s _ _) (by simp)
        |>.andThen (changesOnly_drawn _) (by simp) |>.andThen (changesOnly_setOutcome _ _) (by simp)
  · refine ⟨fun _ => ⟨by simp, fun hx => ?_, ?_⟩, fun hx hany => ?_⟩
    · rw [State.reg_setOutcome, State.reg_setReg_ne _ _ _ _ hx.symm, State.reg_setReg_self]
    · exact (ChangesOnly.refl s _).andThen (changesOnly_setReg s _ _) (by simp)
        |>.andThen (changesOnly_setReg _ _ _) (by simp) |>.andThen (changesOnly_setOutcome _ _) (by simp)
    · simp [hx, hany] at hwins

/-- An instruction that writes a flag and a result and ends with `Ok`. -/
theorem completes_writeFlagged {j : Instr} {s : State} {x : Reg} {flag result : Byte}
    (hexec : exec j s = (s.writeFlagged x flag result).done false) :
    Completes j s fun t => FlaggedResult s t x flag result :=
  ⟨_, hexec, flaggedResult_writeFlagged s x flag result⟩

/-! ## The flags and results -/

theorem flagByte_decide (p : Prop) [Decidable p] : flagByte (decide p) = if p then 1 else 0 := by
  simp [flagByte]

/-- V[x] - V[y] does not borrow exactly when V[y] is at most V[x]. -/
theorem State.diffOf_nonneg_iff (s : State) (x y : Reg) :
    0 ≤ s.diffOf x y ↔ (s.reg y).toNat ≤ (s.reg x).toNat := by
  rw [State.diffOf]
  omega

theorem State.diffOf_neg_iff (s : State) (x y : Reg) : s.diffOf x y < 0 ↔ (s.reg x).toNat < (s.reg y).toNat := by
  rw [State.diffOf]
  omega

/-- A difference narrowed to 8 bits (40 R130). -/
theorem State.toNat_ofInt_diffOf (s : State) (x y : Reg) :
    (BitVec.ofInt 8 (s.diffOf x y)).toNat = ((s.reg x).toNat + 256 - (s.reg y).toNat) % 256 := by
  have hy := (s.reg y).isLt
  rw [BitVec.toNat_ofInt, State.diffOf]
  omega

/-- An instruction that subtracts V[b] from V[a] into V[x]: its flag in both modes, and its result (40 R139, R141). -/
theorem completes_difference {j : Instr} {s : State} (x a b : Reg)
    (hexec : exec j s =
      (s.writeFlagged x (subFlagOf s.params.subFlag (s.diffOf a b)) (BitVec.ofInt 8 (s.diffOf a b))).done false) :
    ∃ flag result : Byte,
      (s.params.subFlag = .noBorrow → flag = if (s.reg b).toNat ≤ (s.reg a).toNat then 1 else 0) ∧
      (s.params.subFlag = .borrow → flag = if (s.reg a).toNat < (s.reg b).toNat then 1 else 0) ∧
      result.toNat = ((s.reg a).toNat + 256 - (s.reg b).toNat) % 256 ∧
      Completes j s fun t => FlaggedResult s t x flag result := by
  refine ⟨_, _, fun hm => ?_, fun hm => ?_, s.toNat_ofInt_diffOf a b, completes_writeFlagged hexec⟩
  · simp only [hm, subFlagOf, flagByte_decide, s.diffOf_nonneg_iff]
  · simp only [hm, subFlagOf, flagByte_decide, s.diffOf_neg_iff]

theorem toNat_shiftRightFlag (a : Byte) : (shiftRightFlag a).toNat = a.toNat % 2 := by
  rw [shiftRightFlag, BitVec.toNat_and]
  exact Nat.and_one_is_mod _

/-- Bit 7 of a byte is what is left of it after a division by 128. -/
theorem toNat_shiftLeftFlag (a : Byte) : (shiftLeftFlag a).toNat = a.toNat / 128 := by
  have ha := a.isLt
  have hbit : (a.toNat &&& 0x80) >>> 7 = a.toNat / 128 % 2 := by
    rw [Nat.shiftRight_and_distrib, Nat.shiftRight_eq_div_pow]
    exact Nat.and_one_is_mod _
  rw [shiftLeftFlag, BitVec.toNat_ushiftRight, BitVec.toNat_and]
  refine hbit.trans ?_
  omega

/-! ## Memory plays no part -/

theorem State.writeFlagged_setMem (s : State) (m : Memory) (x : Reg) (flag result : Byte) :
    (s.setMem m).writeFlagged x flag result = (s.writeFlagged x flag result).setMem m := by
  unfold State.writeFlagged
  rw [State.setMem_params]
  split <;> rfl

/-- An instruction that ends with `Ok` after an update of the state that leaves PC and status, and commutes with a
change of memory. -/
theorem completes_whatever_mem {j : Instr} {s : State} {update : State → State}
    (hexec : ∀ u, exec j u = (update u).done false) (hpc : (update s).pc = s.pc)
    (hstatus : (update s).status = s.status) (hmem : ∀ m, update (s.setMem m) = (update s).setMem m) :
    ∃ t, exec j s = .next t ∧ t.pc = s.pc ∧ t.status = s.status ∧ t.outcome = .ok false ∧
      ∀ m : Memory, exec j (s.setMem m) = .next (t.setMem m) := by
  refine ⟨_, hexec s, hpc, hstatus, rfl, fun m => ?_⟩
  rw [hexec, hmem]
  rfl

end Sys2Proof.Machine

/-! # The obligations on arithmetic and logic (40_arith_logic.md) -/

namespace Sys2Proof.Proofs

open Sys2Proof.Machine

/-- Settles O31: the flag is that of the exact sum, in either mode, and the result is the sum narrowed to 8 bits. -/
theorem addRegister : Obligations.AddRegister := by
  refine fun x y s => ⟨encodedAs_FXY rfl rfl, _, _, fun hm => ?_, fun hm => ?_, BitVec.toNat_ofNat (s.sumOf x y) 8,
    completes_writeFlagged rfl⟩
  · rw [hm]
    exact flagByte_decide _
  · rw [hm]
    exact flagByte_decide _

/-- Settles O32: the two instructions differ in which operand is the minuend. -/
theorem subtractRegisters : Obligations.SubtractRegisters := fun x y _ =>
  ⟨encodedAs_FXY rfl rfl, encodedAs_FXY rfl rfl, completes_difference x x y rfl, completes_difference x y x rfl⟩

/-- Settles O33: the flags are bit 0 and bit 7 of the old V[x], and y is not read. -/
theorem shiftsOfVx : Obligations.ShiftsOfVx := by
  refine fun x y s => ⟨encodedAs_FXY rfl rfl, encodedAs_FXY rfl rfl,
    ⟨_, _, toNat_shiftRightFlag (s.reg x), ?_, completes_writeFlagged rfl⟩,
    ⟨_, _, toNat_shiftLeftFlag (s.reg x), ?_, completes_writeFlagged rfl⟩, fun _ => ⟨rfl, rfl⟩⟩
  · rw [BitVec.toNat_ushiftRight, Nat.shiftRight_eq_div_pow, Nat.pow_one]
  · rw [BitVec.toNat_shiftLeft, Nat.shiftLeft_eq, Nat.pow_one]

/-- Settles O35: each instruction of the family writes one register, or a flag and a result, from registers and free
values. -/
theorem arithmeticNeverRaises : Obligations.ArithmeticNeverRaises := by
  intro j s hj
  cases j with
  | setImm | addImm | setReg | orReg | andReg | xorReg | random =>
    exact completes_whatever_mem (fun _ => rfl) rfl rfl fun _ => rfl
  | addReg | subReg | shiftRight | subnReg | shiftLeft =>
    exact completes_whatever_mem (fun _ => rfl) (s.writeFlagged_pc ..) (s.writeFlagged_status ..)
      fun m => s.writeFlagged_setMem m _ _ _
  | _ => cases hj

/-- Settles O29: both write one register. -/
theorem immediateSetAndAdd : Obligations.ImmediateSetAndAdd := fun x nn s =>
  ⟨encodedAs_FXK rfl rfl, completes_setReg (P := (· = nn)) rfl rfl, encodedAs_FXK rfl rfl,
    completes_setReg (P := (BitVec.toNat · = ((s.reg x).toNat + nn.toNat) % 256)) rfl (BitVec.toNat_ofNat _ 8)⟩

/-- Settles O30: all four write one register, and no flag. -/
theorem registerSetAndLogic : Obligations.RegisterSetAndLogic := fun x y s =>
  ⟨encodedAs_FXY rfl rfl, completes_setReg (P := (· = s.reg y)) rfl rfl,
    encodedAs_FXY rfl rfl, completes_setReg (P := (· = s.reg x ||| s.reg y)) rfl rfl,
    encodedAs_FXY rfl rfl, completes_setReg (P := (· = s.reg x &&& s.reg y)) rfl rfl,
    encodedAs_FXY rfl rfl, completes_setReg (P := (· = s.reg x ^^^ s.reg y)) rfl rfl⟩

/-- Settles O34: nothing is used of the draw. -/
theorem randomMasksADraw : Obligations.RandomMasksADraw := by
  refine fun x nn s => ⟨encodedAs_FXK rfl rfl, _, rfl, ?_, ?_, rfl, rfl, ?_⟩
  · simp
  · rintro rfl
    simp
  · exact (ChangesOnly.refl s _).andThen (changesOnly_setReg s x _) (by simp)
      |>.andThen (changesOnly_drawn _) (by simp) |>.andThen (changesOnly_setOutcome _ _) (by simp)

end Sys2Proof.Proofs

/-! # What the control-flow instructions do

Each leaves one of three updates behind: a PC, a PC and a stack, or a fault. An instruction that ends with `Ok` is read
off its update (`completes_setPc`, `completes_skipIf`, `changesOnly_setStack_setPc_done`); call and return have an
equation for each answer of their check. -/

namespace Sys2Proof.Machine

/-! ## The rows of R100 -/

/-- The rows `oooo kkkk kkkk kkkk`. -/
theorem encodedAs_FA {j : Instr} {op : BitVec 4} {nnn : Addr} {bits : Word}
    (hj : encode j = wordFA op nnn) (hbits : wordFA op 0 = bits) : EncodedAs j bits 0xF000 :=
  hbits ▸ encodedAs_of_op (hj ▸ (fieldsOf_FA op nnn).1)

/-- The rows `oooo xxxx yyyy NNNN`, whose N is ignored (41 R167, R168). -/
theorem encodedAs_FXYN {j : Instr} {op : BitVec 4} {x y : Reg} {n : Nibble} {bits : Word}
    (hj : encode j = wordFXYN op x y n) (hbits : wordFA op 0 = bits) : EncodedAs j bits 0xF000 :=
  hbits ▸ encodedAs_of_op (hj ▸ (fieldsOf_FXYN op x y n).1)

/-! ## A new PC -/

/-- An instruction that writes PC and ends with `Ok`. -/
theorem completes_setPc {j : Instr} {s : State} {a : Word} {P : Word → Prop}
    (hexec : exec j s = (s.setPc a).done false) (ha : P a) :
    Completes j s fun t => P t.pc ∧ t.outcome = .ok false ∧ ChangesOnly s t (among [.pc, .outcome]) :=
  ⟨_, hexec, ha, rfl, (ChangesOnly.refl s _).andThen (changesOnly_setPc s a) (by simp)
    |>.andThen (changesOnly_setOutcome _ _) (by simp)⟩

/-- A skip writes the PC that its condition chooses. -/
theorem completes_skipIf {j : Instr} {s : State} {p : Prop} [Decidable p]
    (hexec : exec j s = (s.skipIf p).done false) :
    Completes j s fun t => t.pc = (if p then s.pc + 2 else s.pc) ∧ t.outcome = .ok false ∧
      ChangesOnly s t (among [.pc, .outcome]) := by
  rw [s.skipIf_eq] at hexec
  refine completes_setPc (P := (· = if p then s.pc + 2 else s.pc)) hexec ?_
  simp [s.skipIf_pc]

/-- A skip on the negation of `p`. -/
theorem completes_skipIf_not {j : Instr} {s : State} {p : Prop} [Decidable p]
    (hexec : exec j s = (s.skipIf (¬ p)).done false) :
    Completes j s fun t => t.pc = (if p then s.pc else s.pc + 2) ∧ t.outcome = .ok false ∧
      ChangesOnly s t (among [.pc, .outcome]) := by
  simpa only [ite_not] using completes_skipIf hexec

/-- The sum of an address and a byte fits 16 bits, so it is exact (41 R169). -/
theorem toNat_addrWord_add_byteWord (nnn : Addr) (b : Byte) :
    (addrWord nnn + byteWord b).toNat = nnn.toNat + b.toNat := by
  have hn := nnn.isLt
  have hb := b.isLt
  rw [BitVec.toNat_add, toNat_addrWord, toNat_byteWord]
  omega

/-! ## A new PC and a new stack -/

theorem changesOnly_setStack (s : State) (l : List Word) : ChangesOnly s (s.setStack l) (among [.stack]) := by
  intro p hp
  cases p with
  | stack => simp at hp
  | _ => rfl

theorem changesOnly_setStack_setPc_done (s : State) (l : List Word) (a : Word) (o : StepOutcome) :
    ChangesOnly s (((s.setStack l).setPc a).setOutcome o) (among [.pc, .stack, .outcome]) :=
  (ChangesOnly.refl s _).andThen (changesOnly_setStack s l) (by simp)
    |>.andThen (changesOnly_setPc _ a) (by simp) |>.andThen (changesOnly_setOutcome _ o) (by simp)

/-! ## Call and return, by their checks -/

theorem exec_call_of_room {s : State} (nnn : Addr) (h : s.stack.length < s.params.stackDepth) :
    exec (.call nnn) s = ((s.push s.pc).setPc (addrWord nnn)).done false := by
  rw [exec, execCall, s.callError_none.mpr h, State.checked]

theorem exec_call_of_full {s : State} (nnn : Addr) (h : s.params.stackDepth ≤ s.stack.length) :
    exec (.call nnn) s = s.raise (.call nnn) .stackOverflow := by
  rw [exec, execCall, (s.callError_some .stackOverflow).mpr ⟨h, rfl⟩, State.checked]

theorem exec_ret_of_cons {s : State} {a : Word} {rest : List Word} (h : s.stack = a :: rest) :
    exec .ret s = ((s.setStack rest).setPc a).done false := by
  rw [exec, execRet, h]

theorem exec_ret_of_nil {s : State} (h : s.stack = []) : exec .ret s = s.raise .ret .stackUnderflow := by
  rw [exec, execRet, h]

/-- What a call with room leaves on the stack. -/
theorem stack_of_exec_call {nnn : Addr} {s t : State} (hroom : s.stack.length < s.params.stackDepth)
    (h : exec (.call nnn) s = .next t) : t.stack = s.pc :: s.stack := by
  rw [exec_call_of_room nnn hroom, State.done_eq_next] at h
  rw [h]
  rfl

end Sys2Proof.Machine

/-! # The obligations on control flow (41_control_flow.md) -/

namespace Sys2Proof.Proofs

open Sys2Proof.Machine

/-- Settles O36: both write only PC, and the sum of `jump nnn+V0` is exact. -/
theorem jumpTargets : Obligations.JumpTargets := fun nnn s =>
  ⟨encodedAs_FA rfl rfl, completes_setPc (P := (BitVec.toNat · = nnn.toNat)) rfl (toNat_addrWord nnn),
    encodedAs_FA rfl rfl, completes_setPc (P := (BitVec.toNat · = nnn.toNat + (s.reg 0).toNat)) rfl
      (toNat_addrWord_add_byteWord nnn _)⟩

/-- Settles O37: by the two answers of the check on the stack's depth. -/
theorem callPushesOrOverflows : Obligations.CallPushesOrOverflows := by
  refine fun nnn s => ⟨encodedAs_FA rfl rfl, fun hroom => ?_, fun hfull => ?_⟩
  · exact ⟨_, exec_call_of_room nnn hroom, rfl, toNat_addrWord nnn, rfl, changesOnly_setStack_setPc_done s _ _ _⟩
  · exact raisesError_of_exec _ s _ (exec_call_of_full nnn hfull.ge)

/-- Settles O38: by the two forms of the stack. -/
theorem returnPopsOrUnderflows : Obligations.ReturnPopsOrUnderflows := by
  refine fun s => ⟨⟨and_FFFF _, decodeWord_encode .ret⟩, fun a rest hcons => ?_, fun hnil => ?_⟩
  · exact ⟨_, exec_ret_of_cons hcons, rfl, rfl, rfl, changesOnly_setStack_setPc_done s rest a _⟩
  · exact raisesError_of_exec _ s _ (exec_ret_of_nil hnil)

/-- Settles O39: the return pops what the call pushed. -/
theorem callThenReturnComesBack : Obligations.CallThenReturnComesBack := by
  intro nnn s t u hroom hcall hstack
  have hpushed : u.stack = s.pc :: s.stack := hstack.trans (stack_of_exec_call hroom hcall)
  exact ⟨_, exec_ret_of_cons hpushed, rfl, rfl⟩

/-- Settles O40: each is a skip on its condition, and N is in no condition. -/
theorem compareSkips : Obligations.CompareSkips := fun _ _ _ _ _ =>
  ⟨encodedAs_FXK rfl rfl, encodedAs_FXK rfl rfl, encodedAs_FXYN rfl rfl, encodedAs_FXYN rfl rfl,
    completes_skipIf rfl, completes_skipIf_not rfl, completes_skipIf rfl, completes_skipIf_not rfl⟩

end Sys2Proof.Proofs

/-! # What the index, memory and timer instructions do

A memory instruction makes one check on the range from I on, before its first write: `exec_of_inRange` and
`raisesError_of_outOfRange` are its two answers (20_memory.md R69). Past the check store-BCD and dump-regs are one
store of consecutive bytes (`completes_store`), and load-regs is one load (`completes_loadRegs`). -/

namespace Sys2Proof.Machine

/-! ## The rows of R100 -/

/-- The rows `oooo xxxx ffff ffff`. -/
theorem encodedAs_FX {j : Instr} {op : BitVec 4} {x : Reg} {nn : Byte} {bits : Word}
    (hj : encode j = wordFXK op x nn) (hbits : wordFXK op 0 nn = bits) : EncodedAs j bits 0xF0FF := by
  obtain ⟨hop, -, hnn⟩ := fieldsOf_FXK op x nn
  have hmask := and_F0FF (encode j)
  rw [hj, hop, hnn, hbits] at hmask
  exact ⟨hj ▸ hmask, decodeWord_encode j⟩

/-! ## Frames -/

/-- Recording the outcome adds it to what is changed. -/
theorem ChangesOnly.setOutcome {s t : State} {allowed : Piece → Prop} (h : ChangesOnly s t allowed)
    (o : StepOutcome) : ChangesOnly s (t.setOutcome o) fun p => p = .outcome ∨ allowed p :=
  (h.mono s t _ _ fun _ => .inr).andThen (changesOnly_setOutcome t o) (by simp)

theorem ChangesOnly.setOutcome_among {s t : State} {l : List Piece} (h : ChangesOnly s t (among l))
    (o : StepOutcome) : ChangesOnly s (t.setOutcome o) (among (l ++ [.outcome])) :=
  (h.setOutcome o).mono s _ _ _ fun p hp => by simpa [among, or_comm] using hp

theorem changesOnly_setI (s : State) (a : Word) : ChangesOnly s (s.setI a) (among [.index]) := by
  intro p hp
  cases p with
  | index => simp at hp
  | _ => rfl

theorem changesOnly_setDt (s : State) (b : Byte) : ChangesOnly s (s.setDt b) (among [.dt]) := by
  intro p hp
  cases p with
  | dt => simp at hp
  | _ => rfl

theorem changesOnly_setSt (s : State) (b : Byte) : ChangesOnly s (s.setSt b) (among [.st]) := by
  intro p hp
  cases p with
  | st => simp at hp
  | _ => rfl

/-- A store changes only the bytes it stores. -/
theorem changesOnly_writeBytes (s : State) (base : Nat) (bytes : List Byte) (hwf : s.mem.wf = true)
    (hb : base + bytes.length ≤ memSize) : ChangesOnly s (s.setMem (s.mem.writeBytes base bytes))
      fun p => ∃ a, p = .byte a ∧ base ≤ a ∧ a < base + bytes.length := by
  intro p hp
  cases p with
  | byte a =>
    by_contra hne
    exact hp ⟨a, rfl, s.mem.mem_range_of_read_writeBytes_ne base bytes a hwf hb hne⟩
  | _ => rfl

/-- A load of V0 to V[x] changes only those registers. -/
theorem changesOnly_loadRegsFrom (s : State) {x : Reg} {bytes : List Byte} (hlen : bytes.length = regCount x) :
    ChangesOnly s (s.loadRegsFrom 0 bytes) fun p => ∃ r : Reg, p = .reg r ∧ r.toNat ≤ x.toNat := by
  intro p hp
  cases p with
  | reg r => exact s.reg_loadRegsFrom_above bytes hlen fun hr => hp ⟨r, rfl, hr⟩
  | _ =>
    rw [s.loadRegsFrom_rest]
    rfl

/-! ## The two answers of a check -/

/-- An instruction whose range from I to I + k is below `MEM_LIMIT` goes on. -/
theorem exec_of_inRange {j : Instr} {s : State} {kind : AccessKind} {rest : Result} (k : Nat)
    (hexec : exec j s = s.checked j (s.rangeError kind s.base (k + 1)) rest)
    (hlim : s.base + k < s.params.memLimit.toNat) : exec j s = rest := by
  rw [hexec, (s.rangeError_none kind s.base (k + 1)).mpr (.inr hlim), State.checked]

/-- An instruction whose check finds an error raises it. -/
theorem raisesError_of_check {j : Instr} {s : State} {check : Option FatalError} {e : FatalError} {rest : Result}
    (hexec : exec j s = s.checked j check rest) (hcheck : check = some e) : RaisesError j s e :=
  raisesError_of_exec j s e (by rw [hexec, hcheck, State.checked])

/-- An instruction whose range from I to I + k reaches `MEM_LIMIT` raises, with the lowest invalid address. -/
theorem raisesError_of_outOfRange {j : Instr} {s : State} {kind : AccessKind} {rest : Result} (k : Nat)
    (hexec : exec j s = s.checked j (s.rangeError kind s.base (k + 1)) rest)
    (hlim : s.params.memLimit.toNat ≤ s.base + k) :
    RaisesError j s (.outOfBounds kind (max s.base s.params.memLimit.toNat)) :=
  raisesError_of_check hexec
    ((s.rangeError_some kind s.base (k + 1) _).mpr ⟨⟨Nat.succ_pos k, Nat.lt_succ_of_le hlim⟩, rfl⟩)

/-! ## A store and a load -/

/-- An instruction that stores `k + 1` bytes from I on, when they are below `MEM_LIMIT`. -/
theorem completes_store {j : Instr} {s : State} {bytes : List Byte} {k : Nat}
    (hexec : exec j s = s.checked j (s.rangeError .write s.base (k + 1))
      ((s.setMem (s.mem.writeBytes s.base bytes)).done false))
    (hlen : bytes.length = k + 1) (hwf : s.mem.wf = true) (hlim : s.base + k < s.params.memLimit.toNat) :
    Completes j s fun t =>
      (∀ (i : Nat) (hi : i < bytes.length), t.mem.read (s.base + i) = bytes[i]) ∧ t.outcome = .ok false ∧
      ChangesOnly s t fun p => p = .outcome ∨ ∃ a, p = .byte a ∧ s.base ≤ a ∧ a ≤ s.base + k := by
  have hmem : s.base + bytes.length ≤ memSize := by
    have := memLimit_le s.params.memLimit
    omega
  have hframe := changesOnly_writeBytes s s.base bytes hwf hmem
  rw [hlen] at hframe
  exact ⟨_, exec_of_inRange k hexec hlim, fun i hi => s.mem.read_writeBytes_add s.base bytes i hwf hmem hi, rfl,
    (hframe.mono s _ _ _ fun _ ⟨a, hp, hlow, hhigh⟩ => ⟨a, hp, hlow, Nat.le_of_lt_succ hhigh⟩).setOutcome _⟩

/-- What a register up to V[x] holds after V0 to V[x] were loaded from memory. -/
theorem State.reg_loadRegsFrom_readBytes (s : State) {x r : Reg} (m : Memory) (base : Nat)
    (hr : r.toNat ≤ x.toNat) :
    (s.loadRegsFrom 0 (m.readBytes base (regCount x))).reg r = m.read (base + r.toNat) := by
  have hcount : r.toNat < regCount x := Nat.lt_succ_of_le hr
  rw [s.reg_loadRegsFrom 0 _ r (by simpa using regCount_le x), if_pos (Nat.zero_le _), Nat.sub_zero,
    m.readBytes_getElem?, if_pos hcount, Option.getD_some]

/-- A load-regs whose range is below `MEM_LIMIT` (42 R187). -/
theorem completes_loadRegs {x : Reg} {s : State} (hlim : s.base + x.toNat < s.params.memLimit.toNat) :
    Completes (.loadRegs x) s fun t =>
      (∀ r : Reg, r.toNat ≤ x.toNat → t.reg r = s.mem.read (s.base + r.toNat)) ∧ t.outcome = .ok false ∧
      ChangesOnly s t fun p => p = .outcome ∨ ∃ r : Reg, p = .reg r ∧ r.toNat ≤ x.toNat :=
  ⟨_, exec_of_inRange x.toNat rfl hlim, fun _ hr => s.reg_loadRegsFrom_readBytes s.mem s.base hr, rfl,
    (changesOnly_loadRegsFrom s (s.mem.readBytes_length _ _)).setOutcome _⟩

/-- After a dump-regs whose range is below `MEM_LIMIT`, the byte at I + r is V[r] (42 R186). -/
theorem read_reg_of_exec_dumpRegs {x r : Reg} {s t : State} (hwf : s.mem.wf = true)
    (hlim : s.base + x.toNat < s.params.memLimit.toNat) (h : exec (.dumpRegs x) s = .next t)
    (hr : r.toNat ≤ x.toNat) : t.mem.read (s.base + r.toNat) = s.reg r := by
  rw [read_of_exec_dumpRegs hwf hlim h hr, BitVec.ofNat_toNat, BitVec.setWidth_eq]

/-- A dump-regs leaves I, whether it completes or raises (42 R186). -/
theorem index_of_exec_dumpRegs {x : Reg} {s t : State} (h : exec (.dumpRegs x) s = .next t) : t.i = s.i := by
  obtain hi | ⟨⟨_, hj⟩, -⟩ | ⟨_, hj⟩ | ⟨⟨_, hj⟩, -⟩ := (effect_of_exec h).index
  · exact hi
  all_goals cases hj

/-! ## Values -/

/-- The digits of a byte fit a byte (42 R185). -/
theorem toNat_bcdDigits (b : Byte) :
    (bcdDigits b).map BitVec.toNat = [b.toNat / 100, b.toNat / 10 % 10, b.toNat % 10] := by
  have hb := b.isLt
  simp only [bcdDigits, List.map_cons, List.map_nil, BitVec.toNat_ofNat, List.cons.injEq, and_true]
  omega

theorem toNat_bcdDigits_getElem (b : Byte) (i : Nat) (hi : i < (bcdDigits b).length) :
    ((bcdDigits b)[i]).toNat = [b.toNat / 100, b.toNat / 10 % 10, b.toNat % 10][i] := by
  rw [← List.getElem_map BitVec.toNat (h := by simpa using hi)]
  exact List.getElem_of_eq (toNat_bcdDigits b) _

/-- The address of a glyph does not wrap (42 R182). -/
theorem toNat_glyphAddr (d : Byte) : (glyphAddr d).toNat = 5 * d.toNat := by
  have hd := d.isLt
  rw [glyphAddr, BitVec.toNat_ofNat]
  omega

theorem State.tone_iff (s : State) : s.tone = true ↔ s.st ≠ 0 := by
  rw [State.tone, decide_eq_true_iff, Nat.pos_iff_ne_zero, ne_eq, ne_eq, BitVec.toNat_eq]
  rfl

end Sys2Proof.Machine

/-! # The obligations on the index register, memory and timers (42_memory_timer_bcd.md) -/

namespace Sys2Proof.Proofs

open Sys2Proof.Machine

/-- Settles O43: the three bytes stored are the digits. -/
theorem storeBcdDigitsOrRaises : Obligations.StoreBcdDigitsOrRaises := by
  refine fun x s hwf => ⟨encodedAs_FX rfl rfl, fun hlim => ?_, raisesError_of_outOfRange 2 rfl⟩
  obtain ⟨t, hexec, hread, hok, hframe⟩ := completes_store (j := .storeBcd x) (s := s) (k := 2) rfl rfl hwf hlim
  have hdigit (i : Nat) (hi : i < 3) := (congrArg BitVec.toNat (hread i hi)).trans (toNat_bcdDigits_getElem _ i hi)
  exact ⟨t, hexec, hdigit 0 (by decide), hdigit 1 (by decide), hdigit 2 (by decide), hok, hframe⟩

/-- Settles O44: the bytes stored are V0 to V[x]. -/
theorem dumpRegistersOrRaises : Obligations.DumpRegistersOrRaises := by
  refine fun x s hwf => ⟨encodedAs_FX rfl rfl, fun hlim => ?_, raisesError_of_outOfRange x.toNat rfl⟩
  obtain ⟨t, hexec, -, hok, hframe⟩ := completes_store (j := .dumpRegs x) rfl (s.regsUpTo_length x) hwf hlim
  exact ⟨t, hexec, fun _ => read_reg_of_exec_dumpRegs hwf hlim hexec, hok, hframe⟩

/-- Settles O45: by the two answers of the range check. -/
theorem loadRegistersOrRaises : Obligations.LoadRegistersOrRaises := fun x _ =>
  ⟨encodedAs_FX rfl rfl, completes_loadRegs, raisesError_of_outOfRange x.toNat rfl⟩

/-- Settles O46: the load reads the addresses that the dump stored to, since the dump leaves I. -/
theorem dumpThenLoadRestores : Obligations.DumpThenLoadRestores := by
  intro x s t u hwf hlim hdump hmem hi hparams
  have hbase : u.base = s.base := congrArg BitVec.toNat (hi.trans (index_of_exec_dumpRegs hdump))
  have hlim' : u.base + x.toNat < u.params.memLimit.toNat := by
    rwa [hbase, hparams, (effect_of_exec hdump).params]
  obtain ⟨w, hload, hregs, -, -⟩ := completes_loadRegs hlim'
  refine ⟨w, hload, fun r hr => ?_⟩
  rw [hregs r hr, hbase, hmem, read_reg_of_exec_dumpRegs hwf hlim hdump hr]

/-- Settles O41: add-I writes VF before I, both from the exact sum of the old values. -/
theorem indexSetAndAdd : Obligations.IndexSetAndAdd := by
  refine fun nnn x s => ⟨encodedAs_FA rfl rfl,
    ⟨_, rfl, toNat_addrWord nnn, rfl, (changesOnly_setI s _).setOutcome_among _⟩, encodedAs_FX rfl rfl,
    _, rfl, BitVec.toNat_ofNat _ 16, ?_, rfl, ?_⟩
  · rw [State.reg_setOutcome, State.reg_setI, State.reg_setReg_self]
    exact flagByte_decide _
  · exact (ChangesOnly.refl s _).andThen (changesOnly_setReg s _ _) (by simp)
      |>.andThen (changesOnly_setI _ _) (by simp) |>.andThen (changesOnly_setOutcome _ _) (by simp)

/-- Settles O42: by the two answers of the check on the digit. -/
theorem glyphAddressOrRaises : Obligations.GlyphAddressOrRaises := by
  refine fun x s => ⟨encodedAs_FX rfl rfl, fun hdigit => ?_, fun hdigit => ?_⟩
  · have hexec : exec (.setIToGlyph x) s = (s.setI (glyphAddr (s.reg x))).done false := by
      rw [exec, execSetIToGlyph, (glyphError_none _).mpr hdigit, State.checked]
    exact ⟨_, hexec, toNat_glyphAddr _, rfl, (changesOnly_setI s _).setOutcome_among _⟩
  · exact raisesError_of_check rfl ((glyphError_some _ _).mpr ⟨hdigit, rfl⟩)

/-- Settles O47: each writes one register or one timer, and the tone is read off ST. -/
theorem timerInstructions : Obligations.TimerInstructions := fun _ s =>
  ⟨encodedAs_FX rfl rfl, completes_setReg (P := (· = s.dt)) rfl rfl,
    encodedAs_FX rfl rfl, ⟨_, rfl, rfl, rfl, (changesOnly_setDt s _).setOutcome_among _⟩,
    encodedAs_FX rfl rfl, ⟨_, rfl, rfl, State.tone_iff _, rfl, (changesOnly_setSt s _).setOutcome_among _⟩⟩

end Sys2Proof.Proofs

/-! # What the sprite-draw engine does

No two positions of a sprite go to the same pixel (`placePixel_inj`), so the blitter's list of pixels has no repetition
and `blitList_spec` says what a draw does to the framebuffer and to its collision flag. `State.afterDraw` names the state
that a draw within its range leaves; what the obligations say of a draw is read off it. -/

namespace Sys2Proof.Machine

/-! ## No pixel twice in one sprite -/

/-- In clip mode the start is reduced and the sum does not wrap, so both modes place by the same formula (43 R203,
R204). -/
theorem val_of_placePixel_eq_some {mode : DrawEdgeMode} {xs ys : Byte} {c r : Nat} {p : Fin 64 × Fin 32}
    (h : placePixel mode xs ys c r = some p) :
    p.1.val = (xs.toNat + c) % 64 ∧ p.2.val = (ys.toNat + r) % 32 := by
  cases mode with
  | wrap =>
    cases h
    exact ⟨rfl, rfl⟩
  | clip =>
    rw [placePixel] at h
    split at h
    · cases h
      dsimp only
      omega
    · cases h

/-- Positions less than one screen apart go to different pixels (43 R208). -/
theorem placePixel_inj {mode : DrawEdgeMode} {xs ys : Byte} {c r c' r' : Nat} {p : Fin 64 × Fin 32}
    (hc : c < 64) (hc' : c' < 64) (hr : r < 32) (hr' : r' < 32) (h : placePixel mode xs ys c r = some p)
    (h' : placePixel mode xs ys c' r' = some p) : c = c' ∧ r = r' := by
  obtain ⟨hx, hy⟩ := val_of_placePixel_eq_some h
  obtain ⟨hx', hy'⟩ := val_of_placePixel_eq_some h'
  omega

theorem nodup_rowPixels (mode : DrawEdgeMode) (xs ys : Byte) {r : Nat} (row : Byte) (hr : r < 32) :
    (rowPixels mode xs ys r row).Nodup := by
  refine List.pairwise_filterMap.mpr (List.nodup_range.imp_of_mem fun {c c'} hc hc' hne p hp p' hp' heq => hne ?_)
  rw [List.mem_range] at hc hc'
  subst heq
  simp only [Option.ite_none_right_eq_some] at hp hp'
  exact (placePixel_inj (by omega) (by omega) hr hr hp.2 hp'.2).1

theorem nodup_rowsPixels (mode : DrawEdgeMode) (xs ys : Byte) (rows : List Byte) (r : Nat)
    (h : r + rows.length ≤ 32) : (rowsPixels mode xs ys r rows).Nodup := by
  induction rows generalizing r with
  | nil => exact List.nodup_nil
  | cons row rest ih =>
    rw [List.length_cons] at h
    refine List.nodup_append.mpr ⟨nodup_rowPixels mode xs ys row (by omega), ih (r + 1) (by omega), ?_⟩
    rintro p hp _ hq rfl
    obtain ⟨c, hc, -, hplace⟩ := (mem_rowPixels ..).mp hp
    obtain ⟨k, c', hk, hc', -, hplace'⟩ := (mem_rowsPixels ..).mp hq
    obtain ⟨-, hrow⟩ := placePixel_inj (by omega) (by omega) (by omega) (by omega) hplace hplace'
    omega

/-! ## What a draw does to the framebuffer -/

/-- The pixels that `draw Vx,Vy,n` flips, in order. -/
def State.drawPixels (s : State) (x y : Reg) (n : Nibble) : List (Fin 64 × Fin 32) :=
  rowsPixels s.params.drawEdge (s.reg x) (s.reg y) 0 (s.mem.readBytes s.base n.toNat)

theorem State.mem_drawPixels (s : State) (x y : Reg) (n : Nibble) (px : Fin 64) (py : Fin 32) :
    (px, py) ∈ s.drawPixels x y n ↔ SpriteCovers s x y n px py :=
  (spriteCovers_iff s x y n px py).symm

theorem State.drawBlit_eq_blitList (s : State) (x y : Reg) (n : Nibble) :
    s.drawBlit x y n = blitList ⟨s.fb, false⟩ (s.drawPixels x y n) :=
  blitRows_eq ..

/-- A sprite of at most 15 rows visits no pixel twice (43 R208). -/
theorem State.nodup_drawPixels (s : State) (x y : Reg) (n : Nibble) : (s.drawPixels x y n).Nodup := by
  have hn := n.isLt
  exact nodup_rowsPixels _ _ _ _ 0 (by rw [Memory.readBytes_length]; omega)

/-- A pixel is XORed with whether a set sprite bit lands on it (43 R201). -/
theorem State.pixelOf_drawBlit (s : State) (x y : Reg) (n : Nibble) (px : Fin 64) (py : Fin 32) :
    pixelOf (s.drawBlit x y n).fb px py = true ↔ (s.pixel px py = true ↔ ¬ SpriteCovers s x y n px py) := by
  rw [s.drawBlit_eq_blitList, (blitList_spec _ (s.nodup_drawPixels x y n) _).1, ← s.mem_drawPixels, State.pixel]
  cases pixelOf s.fb px py <;> simp

/-- A pixel is turned off exactly when a set sprite bit lands on one that was on (43 R201). -/
theorem State.turnedOff_drawBlit (s : State) (x y : Reg) (n : Nibble) :
    (s.drawBlit x y n).turnedOff = true ↔ ∃ px py, s.pixel px py = true ∧ SpriteCovers s x y n px py := by
  simp only [s.drawBlit_eq_blitList, (blitList_spec _ (s.nodup_drawPixels x y n) _).2, s.mem_drawPixels, State.pixel,
    Bool.false_eq_true, false_or]

theorem collisionFlag_eq_zero_iff (turnedOff : Bool) : collisionFlag turnedOff = 0 ↔ turnedOff = true := by
  cases turnedOff <;> decide

theorem collisionFlag_eq_zero_or_one (turnedOff : Bool) :
    collisionFlag turnedOff = 0 ∨ collisionFlag turnedOff = 1 := by
  cases turnedOff <;> decide

theorem changesOnly_setFb (s : State) (f : Framebuffer) :
    ChangesOnly s (s.setFb f) fun p => ∃ px py, p = .pixel px py := by
  intro p hp
  cases p with
  | pixel px py => exact absurd ⟨px, py, rfl⟩ hp
  | _ => rfl

/-! ## The state after a draw -/

/-- The state that `draw Vx,Vy,n` leaves when its range is below `MEM_LIMIT` (`exec_draw_of_inRange`). -/
def State.afterDraw (s : State) (x y : Reg) (n : Nibble) : State :=
  ((s.setFb (s.drawBlit x y n).fb).setReg regF (collisionFlag (s.drawBlit x y n).turnedOff)).setOutcome (.ok true)

theorem exec_draw_of_inRange {s : State} (x y : Reg) {n : Nibble}
    (h : s.rangeError .read s.base n.toNat = none) : exec (.draw x y n) s = .next (s.afterDraw x y n) := by
  rw [exec, execDraw, h, State.checked, State.done, State.afterDraw]

/-- All that a draw can do: raise the error of its check, or draw. -/
theorem draw_cases {x y : Reg} {n : Nibble} {s t : State} (h : exec (.draw x y n) s = .next t) :
    (∃ e, t = s.enterFault ⟨e, s.pc0, some (encode (.draw x y n))⟩) ∨
    (s.rangeError .read s.base n.toNat = none ∧ t = s.afterDraw x y n) := by
  obtain ⟨e, -, ht⟩ | ⟨hcheck, hdone⟩ := s.checked_cases t _ _ _ h
  · exact .inl ⟨e, ht⟩
  · exact .inr ⟨hcheck, (State.done_eq_next ..).mp hdone⟩

theorem State.pixel_afterDraw (s : State) (x y : Reg) (n : Nibble) (px : Fin 64) (py : Fin 32) :
    (s.afterDraw x y n).pixel px py = true ↔ (s.pixel px py = true ↔ ¬ SpriteCovers s x y n px py) :=
  s.pixelOf_drawBlit x y n px py

theorem State.regF_afterDraw (s : State) (x y : Reg) (n : Nibble) :
    (s.afterDraw x y n).reg regF = collisionFlag (s.drawBlit x y n).turnedOff := by
  rw [State.afterDraw, State.reg_setOutcome, State.reg_setReg_self]

/-- VF is 0 exactly on a collision (43 R206). -/
theorem State.regF_afterDraw_eq_zero_iff (s : State) (x y : Reg) (n : Nibble) :
    (s.afterDraw x y n).reg regF = 0 ↔ ∃ px py, s.pixel px py = true ∧ SpriteCovers s x y n px py := by
  rw [s.regF_afterDraw, collisionFlag_eq_zero_iff, s.turnedOff_drawBlit]

theorem State.reg_afterDraw_ne (s : State) (x y : Reg) (n : Nibble) {r : Reg} (h : r ≠ regF) :
    (s.afterDraw x y n).reg r = s.reg r := by
  rw [State.afterDraw, State.reg_setOutcome, State.reg_setReg_ne _ _ _ _ h, State.reg_setFb]

/-- A draw leaves what its range check reads. -/
theorem State.rangeError_afterDraw (s : State) (x y : Reg) (n : Nibble) (kind : AccessKind) (count : Nat) :
    (s.afterDraw x y n).rangeError kind (s.afterDraw x y n).base count = s.rangeError kind s.base count := rfl

theorem State.changesOnly_afterDraw (s : State) (x y : Reg) (n : Nibble) :
    ChangesOnly s (s.afterDraw x y n) fun p => p = .outcome ∨ p = .reg regF ∨ ∃ px py, p = .pixel px py :=
  ((changesOnly_setFb s _).mono s _ _ _ fun _ => .inr).andThen (changesOnly_setReg _ regF _) (by simp)
    |>.setOutcome _

/-- A draw leaves the sprite, and the coordinates too when they are not in VF, so a second draw covers the same
pixels. -/
theorem spriteCovers_afterDraw_iff (s : State) {x y : Reg} (n : Nibble) (hx : x ≠ regF) (hy : y ≠ regF)
    (px : Fin 64) (py : Fin 32) : SpriteCovers (s.afterDraw x y n) x y n px py ↔ SpriteCovers s x y n px py := by
  rw [SpriteCovers, s.reg_afterDraw_ne x y n hx, s.reg_afterDraw_ne x y n hy]
  rfl

/-- Two XORs with the same sprite cancel. -/
theorem State.pixel_afterDraw_afterDraw (s : State) {x y : Reg} (n : Nibble) (hx : x ≠ regF) (hy : y ≠ regF)
    (px : Fin 64) (py : Fin 32) : ((s.afterDraw x y n).afterDraw x y n).pixel px py = s.pixel px py := by
  rw [Bool.eq_iff_iff, State.pixel_afterDraw, State.pixel_afterDraw, spriteCovers_afterDraw_iff s n hx hy]
  tauto

/-- A pixel that is on after a draw and covered by its sprite is one that the draw turned on. -/
theorem State.pixel_afterDraw_and_covers_iff (s : State) (x y : Reg) (n : Nibble) (px : Fin 64) (py : Fin 32) :
    (s.afterDraw x y n).pixel px py = true ∧ SpriteCovers s x y n px py ↔
      s.pixel px py = false ∧ (s.afterDraw x y n).pixel px py = true := by
  rw [s.pixel_afterDraw, ← Bool.not_eq_true]
  tauto

/-! ## Dirty -/

/-- Only clear-screen and draw end with `Ok(true)` (43 R205). -/
theorem Effect.dirty {s t : State} {j : Instr} {d : Bool} (he : Effect s j t) (ho : t.outcome = .ok d) :
    d = false ∨ j = .clearScreen ∨ ∃ x y n, j = .draw x y n := by
  cases he with
  | cleared => exact .inr (.inl rfl)
  | drew x y n => exact .inr (.inr ⟨x, y, n, rfl⟩)
  | raised | awaited => cases ho
  | _ => exact .inl (StepOutcome.ok.inj ho).symm

theorem outcome_of_exec_clearScreen {s t : State} (h : exec .clearScreen s = .next t) : t.outcome = .ok true := by
  cases h
  rfl

theorem dirty_of_exec_draw {x y : Reg} {n : Nibble} {s t : State} {d : Bool} (h : exec (.draw x y n) s = .next t)
    (ho : t.outcome = .ok d) : d = true := by
  obtain ⟨e, rfl⟩ | ⟨-, rfl⟩ := draw_cases h
  · cases ho
  · exact (StepOutcome.ok.inj ho).symm

end Sys2Proof.Machine

/-! # The obligations on the sprite-draw engine (43_sprite_draw.md) -/

namespace Sys2Proof.Proofs

open Sys2Proof.Machine

/-- Settles O24: the other instructions by the forms an instruction's answer can have, these two by what they answer. -/
theorem dirtyExactlyForScreenInstructions : Obligations.DirtyExactlyForScreenInstructions := by
  refine fun j s t d h ho => ⟨fun hd => ?_, ?_⟩
  · exact ((effect_of_exec h).dirty ho).resolve_left (by simp [hd])
  · rintro (rfl | ⟨x, y, n, rfl⟩)
    · exact StepOutcome.ok.inj (ho.symm.trans (outcome_of_exec_clearScreen h))
    · exact dirty_of_exec_draw h ho

/-- Settles O49: by the two answers of the range check; a drawn state is `State.afterDraw`. -/
theorem drawXorsTheSprite : Obligations.DrawXorsTheSprite := by
  refine fun x y n s => ⟨encodedAs_FXYN rfl rfl, fun hlim => ?_, fun ⟨hpos, hlim⟩ => ?_⟩
  · have hcheck : s.rangeError .read s.base n.toNat = none := (s.rangeError_none ..).mpr (by omega)
    exact ⟨_, exec_draw_of_inRange x y hcheck, s.pixel_afterDraw x y n,
      s.regF_afterDraw x y n ▸ collisionFlag_eq_zero_or_one _, s.regF_afterDraw_eq_zero_iff x y n, rfl,
      s.changesOnly_afterDraw x y n⟩
  · exact raisesError_of_check rfl ((s.rangeError_some ..).mpr ⟨by omega, rfl⟩)

/-- Settles O50: the first draw did not raise, since its state is Running, so the second does not either: I, memory and
the parameters are the same. -/
theorem drawTwiceRestores : Obligations.DrawTwiceRestores := by
  intro x y n s t u hx hy hrun hfirst hsecond
  obtain ⟨e, rfl⟩ | ⟨hcheck, rfl⟩ := draw_cases hfirst
  · cases hrun
  · have hcheck' := (s.rangeError_afterDraw x y n .read n.toNat).trans hcheck
    obtain rfl : (s.afterDraw x y n).afterDraw x y n = u :=
      Host.Outcome.next.inj ((exec_draw_of_inRange x y hcheck').symm.trans hsecond)
    refine ⟨s.pixel_afterDraw_afterDraw n hx hy, ?_⟩
    simp only [State.regF_afterDraw_eq_zero_iff, spriteCovers_afterDraw_iff s n hx hy,
      s.pixel_afterDraw_and_covers_iff]

/-- Settles O51: a sprite is smaller than the screen. -/
theorem noPixelVisitedTwice : Obligations.NoPixelVisitedTwice :=
  fun _ _ _ _ _ _ _ _ hc hc' hr hr' =>
    placePixel_inj (by omega) (by omega) (by omega) (by omega)

/-- Settles O48: VF is not written. -/
theorem clearScreenClears : Obligations.ClearScreenClears := fun s =>
  ⟨⟨and_FFFF _, decodeWord_encode .clearScreen⟩, _, rfl, pixelOf_clearFb, rfl, (changesOnly_setFb s _).setOutcome _⟩

end Sys2Proof.Proofs

/-! # What the keypad instructions do

A key skip makes one check on its key index, before it looks at the keypad (44_input.md R225). A wait-key has one
equation for no key pressed, and one for each mode of `KEY_SELECT` when some key is (R222, R223). -/

namespace Sys2Proof.Machine

/-! ## The keypad -/

theorem State.key_of_lt (s : State) {k : Nat} (h : k < 16) : s.key k = s.keys[k] := by
  simp [State.key, h]

theorem State.pressed_eq_nil_iff (s : State) : s.pressed = [] ↔ ∀ (k : Nat) (h : k < 16), s.keys[k] = false := by
  simp [List.eq_nil_iff_forall_not_mem, s.mem_pressed]

/-- A pressed key below which no key is pressed comes first. -/
theorem State.exists_pressed_eq_cons (s : State) {k : Nat} (hk : k < 16) (hkey : s.keys[k] = true)
    (hlow : ∀ (j : Nat) (hj : j < k), s.keys[j] = false) : ∃ rest, s.pressed = k :: rest := by
  rw [← List.head?_eq_some_iff, State.pressed, List.head?_filter, List.find?_range_eq_some]
  refine ⟨by rw [s.key_of_lt hk, hkey], List.mem_range.mpr hk, fun j hj => ?_⟩
  rw [s.key_of_lt (hj.trans hk), hlow j hj, Bool.not_false]

/-- A pressed key is stored as its index: it fits a byte. -/
theorem State.toNat_ofNat_of_mem_pressed {s : State} {k : Nat} (h : k ∈ s.pressed) : (BitVec.ofNat 8 k).toNat = k := by
  obtain ⟨hk, -⟩ := (s.mem_pressed k).mp h
  rw [BitVec.toNat_ofNat, Nat.mod_eq_of_lt (by omega)]

/-! ## The key skips -/

theorem exec_skipIfKey_of_lt {x : Reg} {s : State} (h : (s.reg x).toNat < 16) :
    exec (.skipIfKey x) s = (s.skipIf (s.keys[(s.reg x).toNat] = true)).done false := by
  rw [exec, execSkipIfKey, (keyError_none _).mpr (Nat.le_of_lt_succ h), State.checked, s.key_of_lt h,
    Bool.decide_eq_true]

theorem exec_skipIfNotKey_of_lt {x : Reg} {s : State} (h : (s.reg x).toNat < 16) :
    exec (.skipIfNotKey x) s = (s.skipIf (¬ s.keys[(s.reg x).toNat] = true)).done false := by
  rw [exec, execSkipIfNotKey, (keyError_none _).mpr (Nat.le_of_lt_succ h), State.checked, s.key_of_lt h,
    decide_not, Bool.decide_eq_true]

/-! ## The wait-key -/

theorem exec_waitKey_of_nil {s : State} (x : Reg) (h : s.pressed = []) :
    exec (.waitKey x) s = .next ((s.setPc s.pc0).setOutcome .awaitingInput) := by
  rw [exec, execWaitKey, h]

theorem exec_waitKey_of_lowest {s : State} {k : Nat} {rest : List Nat} (x : Reg) (h : s.pressed = k :: rest)
    (hmode : s.params.keySelect = .lowest) :
    exec (.waitKey x) s = (s.setReg x (BitVec.ofNat 8 k)).done false := by
  simp only [exec, execWaitKey, h, State.keyDrawn, hmode, selectKey]

/-- In mode `any` one value is drawn, and it selects a pressed key. -/
theorem exec_waitKey_of_any {s : State} {k : Nat} (x : Reg) (h : k ∈ s.pressed)
    (hmode : s.params.keySelect = .any) :
    ∃ j ∈ s.pressed, exec (.waitKey x) s = (s.drawn.setReg x (BitVec.ofNat 8 j)).done false := by
  obtain ⟨k₀, rest, hp⟩ := List.exists_cons_of_ne_nil (List.ne_nil_of_mem h)
  refine ⟨_, hp ▸ selectKey_mem .any (Config.keyPick s.draws) k₀ rest, ?_⟩
  simp only [exec, execWaitKey, hp, State.keyDrawn, hmode]

/-! ## The awaiting-key condition -/

/-- PC goes back to the instruction, so only the outcome record is new (44 R222). -/
theorem step_of_awaitingKey {s : State} (h : s.awaitingKey) : step s = .next (s.setOutcome .awaitingInput) := by
  obtain ⟨hrun, hf, ⟨x, hd⟩, hnone⟩ := h
  rw [step_exec s _ hrun hf hd, exec_waitKey_of_nil x (s := s.advance) hnone, s.pc0_advance]
  rfl

/-- The condition is on the status, PC, the memory, the parameters and the keypad. -/
theorem State.awaitingKey_setOutcome_iff (s : State) (o : StepOutcome) :
    (s.setOutcome o).awaitingKey ↔ s.awaitingKey := Iff.rfl

theorem State.awaitingKey_tickTimers_iff (s : State) : s.tickTimers.awaitingKey ↔ s.awaitingKey := Iff.rfl

end Sys2Proof.Machine

/-! # The obligations on the keypad (44_input.md) -/

namespace Sys2Proof.Proofs

open Sys2Proof.Machine

/-- Settles O26: the condition is about pieces that neither the step nor the tick changes. -/
theorem awaitingKeyStepChangesNothing : Obligations.AwaitingKeyStepChangesNothing := fun s h =>
  ⟨⟨_, step_of_awaitingKey h, rfl, changesOnly_setOutcome s _, (s.awaitingKey_setOutcome_iff _).mpr h⟩,
    s.awaitingKey_tickTimers_iff.mpr h⟩

/-- Settles O53: the pressed keys are none, begin with the lowest, or hold the one that mode `any` selects. -/
theorem waitKeyBlocksOrStores : Obligations.WaitKeyBlocksOrStores := by
  refine fun x s => ⟨encodedAs_FX rfl rfl, fun hnone => ?_, fun k hk hkey hmode hlow => ?_, fun k hk hkey hmode => ?_⟩
  · exact ⟨_, exec_waitKey_of_nil x (s.pressed_eq_nil_iff.mpr hnone), rfl, rfl,
      (changesOnly_setPc s _).setOutcome_among _⟩
  · obtain ⟨rest, hp⟩ := s.exists_pressed_eq_cons hk hkey hlow
    exact completes_setReg (P := (BitVec.toNat · = k)) (exec_waitKey_of_lowest x hp hmode)
      (State.toNat_ofNat_of_mem_pressed (hp ▸ List.mem_cons_self))
  · obtain ⟨j, hj, hexec⟩ := exec_waitKey_of_any x ((s.mem_pressed k).mpr ⟨hk, hkey⟩) hmode
    obtain ⟨hj16, hjkey⟩ := (s.mem_pressed j).mp hj
    refine ⟨_, hexec, ⟨j, hj16, hjkey, ?_⟩, rfl, ?_⟩
    · rw [State.reg_setOutcome, State.reg_setReg_self, State.toNat_ofNat_of_mem_pressed hj]
    · exact (ChangesOnly.refl s _).andThen (changesOnly_drawn s) (by simp)
        |>.andThen (changesOnly_setReg _ x _) (by simp) |>.andThen (changesOnly_setOutcome _ _) (by simp)

/-- Settles O52: by the two answers of the check on the key index. -/
theorem keySkipsOrRaise : Obligations.KeySkipsOrRaise := by
  refine fun x s => ⟨encodedAs_FX rfl rfl, encodedAs_FX rfl rfl, fun hindex => ?_, fun hindex => ?_⟩
  · exact ⟨completes_skipIf (exec_skipIfKey_of_lt hindex), completes_skipIf_not (exec_skipIfNotKey_of_lt hindex)⟩
  · have herror := (keyError_some _ _).mpr ⟨hindex, rfl⟩
    exact ⟨raisesError_of_check rfl herror, raisesError_of_check rfl herror⟩

end Sys2Proof.Proofs

/-! # What the host's commands keep, how a step faults, and that it always answers

The host's commands are a step, a reset, a tick and a key write (60_exceptions.md R250). A fault of an instruction has
one form (`Effect.eq_enterFault`), and no instruction and no step ends without a next state (`exec_answers`,
`step_answers`). -/

namespace Sys2Proof.Machine

/-! ## An invalid word -/

/-- What a step answers for an invalid word (60 R235). -/
def invalidOutcome (report : InvalidReport) (pc0 word : Word) : StepOutcome :=
  match report with
  | .warn => .invalidOpcode pc0 word
  | .silent => .ok false

theorem State.invalidOpcode_eq_next (s : State) (w : Word) :
    s.invalidOpcode w = .next (s.setOutcome (invalidOutcome s.params.invalidReport s.pc0 w)) := by
  rw [State.invalidOpcode]
  cases s.params.invalidReport <;> rfl

theorem step_of_invalid {s : State} {e : DecodeError} (hrun : s.status = .running) (hf : s.fetchOk)
    (hd : decodeWord s.wordAtPc = .error e) :
    step s = .next (s.advance.setOutcome (invalidOutcome s.params.invalidReport s.pc s.wordAtPc)) := by
  rw [step_invalid s e hrun hf hd, State.invalidOpcode_eq_next, s.pc0_advance, State.advance_params]

/-! ## Every instruction and every step answers -/

theorem State.checked_answers (s : State) (j : Instr) (check : Option FatalError) (t : State) :
    ∃ u, s.checked j check (.next t) = .next u := by
  cases check with
  | some e => exact ⟨_, rfl⟩
  | none => exact ⟨t, rfl⟩

theorem exec_ret_answers (s : State) : ∃ t, exec .ret s = .next t := by
  cases hs : s.stack with
  | nil => exact ⟨_, exec_ret_of_nil hs⟩
  | cons a rest => exact ⟨_, exec_ret_of_cons hs⟩

theorem exec_waitKey_answers (x : Reg) (s : State) : ∃ t, exec (.waitKey x) s = .next t := by
  cases hp : s.pressed with
  | nil => exact ⟨_, exec_waitKey_of_nil x hp⟩
  | cons k rest =>
    cases hmode : s.params.keySelect with
    | lowest => exact ⟨_, exec_waitKey_of_lowest x hp hmode⟩
    | any =>
      obtain ⟨j, -, hexec⟩ := exec_waitKey_of_any x (hp ▸ List.mem_cons_self) hmode
      exact ⟨_, hexec⟩

theorem exec_answers (j : Instr) (s : State) : ∃ t, exec j s = .next t := by
  cases j with
  | ret => exact exec_ret_answers s
  | waitKey x => exact exec_waitKey_answers x s
  | call | draw | skipIfKey | skipIfNotKey | setIToGlyph | storeBcd | dumpRegs | loadRegs =>
    exact s.checked_answers _ _ _
  | _ => exact ⟨_, rfl⟩

theorem step_answers (s : State) : ∃ t, step s = .next t := by
  cases hs : s.status with
  | faulted r => exact ⟨_, step_faulted s r hs⟩
  | running =>
    by_cases hf : s.fetchOk
    · cases hd : decodeWord s.wordAtPc with
      | error e => exact ⟨_, step_of_invalid hs hf hd⟩
      | ok j => exact step_exec s j hs hf hd ▸ exec_answers j s.advance
    · exact ⟨_, step_not_fetchOk s hs hf⟩

theorem step_eq_next_afterStep (s : State) : step s = .next s.afterStep := by
  obtain ⟨t, ht⟩ := step_answers s
  rw [State.afterStep, ht]

theorem errorCode_le (e : FatalError) : errorCode e ≤ 5 := by
  cases e <;> simp [errorCode]

theorem outcomeCode_le (o : StepOutcome) : outcomeCode o ≤ 5 := by
  cases o with
  | fault r => exact errorCode_le r.error
  | _ => simp [outcomeCode]

/-! ## The form of a fault -/

/-- An instruction that faults a Running machine did nothing but enter the fault, for an error that it can raise. -/
theorem Effect.eq_enterFault {s t : State} {j : Instr} {r : FaultRecord} (he : Effect s j t)
    (hrun : s.status = .running) (hst : t.status = .faulted r) :
    ∃ e, canRaise e j ∧ r = ⟨e, s.pc0, some (encode j)⟩ ∧ t = s.enterFault r := by
  cases he with
  | raised e hj =>
    cases hst
    exact ⟨e, hj, rfl, rfl⟩
  | _ => simp [hrun] at hst

/-- PC goes back to the instruction, so the fetch's advance leaves no trace (60 R236). -/
theorem State.enterFault_advance (s : State) (r : FaultRecord) : s.advance.enterFault r = s.enterFault r := rfl

theorem State.enterFault_of_pc0_eq {s : State} {r : FaultRecord} (h : r.pc0 = s.pc) :
    s.enterFault r = { s with status := .faulted r, outcome := .fault r } := by
  rw [State.enterFault, h]

/-- A step that faults a Running machine enters the fault, at PC (60 R236, R237). -/
theorem step_eq_enterFault {s t : State} {r : FaultRecord} (hrun : s.status = .running) (h : step s = .next t)
    (hst : t.status = .faulted r) :
    t = s.enterFault r ∧ r.pc0 = s.pc ∧
      ((s.fetchOk ∧ r.word = some s.wordAtPc) ∨
        (¬ s.fetchOk ∧ r.word = none ∧ r.error = .outOfBounds .fetch s.pc.toNat)) := by
  obtain ⟨r', hr', -⟩ | ⟨-, hf, rfl⟩ | ⟨-, -, o, -, rfl⟩ | ⟨-, hf, j, hd, hexec⟩ := step_cases s t h
  · cases hrun.symm.trans hr'
  · cases hst
    exact ⟨rfl, rfl, .inr ⟨hf, rfl, rfl⟩⟩
  · cases hrun.symm.trans hst
  · obtain ⟨e, -, rfl, rfl⟩ := (effect_of_exec hexec).eq_enterFault hrun hst
    exact ⟨s.enterFault_advance _, s.pc0_advance, .inl ⟨hf, congrArg some (encode_of_decodeWord hd)⟩⟩

/-! ## The parked state -/

/-- The jump goes to its own address, so only the outcome record is new (60 R256). -/
theorem step_of_parked {s : State} (h : s.parked) (hf : s.fetchOk) : step s = .next (s.setOutcome (.ok false)) := by
  obtain ⟨hrun, nnn, hword, hpc⟩ := h
  have htarget : addrWord nnn = s.pc := BitVec.eq_of_toNat_eq ((toNat_addrWord nnn).trans hpc)
  rw [step_exec s (.jump nnn) hrun hf (hword ▸ decodeWord_encode _), exec, execJump, htarget]
  rfl

/-- The parked state is a condition on the status, PC and the memory. -/
theorem State.parked_setOutcome_iff (s : State) (o : StepOutcome) : (s.setOutcome o).parked ↔ s.parked := Iff.rfl

/-! ## Ticks and key writes -/

theorem toNat_tickByte (t : Byte) : (tickByte t).toNat = t.toNat - 1 := by
  rw [tickByte]
  split <;> bv_omega

theorem changesOnly_tickTimers (s : State) : ChangesOnly s s.tickTimers (among [.dt, .st]) :=
  (ChangesOnly.refl s _).andThen (changesOnly_setDt s _) (by simp) |>.andThen (changesOnly_setSt _ _) (by simp)

theorem changesOnly_setKeys (s : State) (k : Keypad) : ChangesOnly s (s.setKeys k) (among [.keys]) := by
  intro p hp
  cases p with
  | keys => simp at hp
  | _ => rfl

/-! ## Resets -/

theorem State.resetWith_of_tooLarge (s : State) (image : List Byte) (h : ¬ image.length ≤ 3584) :
    s.resetWith image = (s, .programTooLarge image.length) :=
  if_pos (show 3584 < image.length by omega)

/-- A reset that succeeds makes the machine Running, and one that fails leaves the status (60 R238, 70 R273). -/
theorem State.status_resetWith (s : State) (image : List Byte) :
    (s.resetWith image).1.status = if image.length ≤ 3584 then .running else s.status := by
  by_cases h : image.length ≤ 3584
  · rw [s.resetWith_of_fits image h, if_pos h, State.afterReset_status]
  · rw [s.resetWith_of_tooLarge image h, if_neg h]

/-! ## Every command keeps the invariant -/

theorem State.inv_afterReset (s : State) (image : List Byte) (h : image.length ≤ 3584) : (s.afterReset image).Inv :=
  ⟨s.wf_resetMemory image h, Nat.zero_le _, fun _ ha => absurd ha List.not_mem_nil, by simp,
    State.faultConsistent_of_running rfl fun _ ho => by cases ho⟩

theorem State.Inv.resetWith {s : State} (h : s.Inv) (image : List Byte) : (s.resetWith image).1.Inv := by
  by_cases hfits : image.length ≤ 3584
  · rw [s.resetWith_of_fits image hfits]
    exact s.inv_afterReset image hfits
  · rwa [s.resetWith_of_tooLarge image hfits]

/-- The invariant says nothing of the timers. -/
theorem State.inv_tickTimers_iff (s : State) : s.tickTimers.Inv ↔ s.Inv := Iff.rfl

/-- The invariant says nothing of the keypad. -/
theorem State.inv_setKeys_iff (s : State) (k : Keypad) : (s.setKeys k).Inv ↔ s.Inv := Iff.rfl

theorem State.Inv.command {s : State} (h : s.Inv) (c : Command) : (s.command c).Inv := by
  cases c with
  | reset image => exact State.Inv.resetWith h image
  | step => exact step_inv h (step_eq_next_afterStep s)
  | tickTimers => exact s.inv_tickTimers_iff.mpr h
  | setKeys k => exact (s.inv_setKeys_iff k).mpr h

theorem State.Inv.commands {s : State} (h : s.Inv) (cs : List Command) : (s.commands cs).Inv := by
  induction cs generalizing s with
  | nil => exact h
  | cons c cs ih => exact ih (State.Inv.command h c)

end Sys2Proof.Machine

/-! # The obligations on exceptions and the host interface (60_exceptions.md) -/

namespace Sys2Proof.Proofs

open Sys2Proof.Machine

/-- Settles O6, by induction on the commands: each one keeps the invariant. -/
theorem commandsKeepTheInvariant : Obligations.CommandsKeepTheInvariant := fun cs _ h => State.Inv.commands h cs

/-- Settles O21: by the ends of a step and the arms of the instructions. -/
theorem stepAlwaysAnswers : Obligations.StepAlwaysAnswers :=
  ⟨fun s => (step_answers s).imp fun t h => ⟨h, outcomeCode_le t.outcome⟩, exec_answers⟩

/-- Settles O22: a fault of the fetch comes before the advance, and one of an instruction undoes it. -/
theorem faultIsPrecise : Obligations.FaultIsPrecise := by
  intro s t r hrun h hst
  obtain ⟨rfl, hpc0, hword⟩ := step_eq_enterFault hrun h hst
  exact ⟨State.enterFault_of_pc0_eq hpc0, hpc0, hword⟩

/-- Settles O23: of the forms of an instruction only `Effect.raised` faults, for an error the instruction can raise. -/
theorem errorsComeFromTheirInstructions : Obligations.ErrorsComeFromTheirInstructions := by
  intro j s t r hrun h hst
  obtain ⟨e, hraise, rfl, -⟩ := (effect_of_exec h).eq_enterFault hrun hst
  exact hraise

/-- Settles O25: the word at PC decodes to the jump to PC. -/
theorem parkedMachineStaysParked : Obligations.ParkedMachineStaysParked := fun s h hf =>
  ⟨_, step_of_parked h hf, (s.parked_setOutcome_iff _).mpr h, rfl, changesOnly_setOutcome s _⟩

/-- Settles O7. -/
theorem tickTimersFloorsAtZero : Obligations.TickTimersFloorsAtZero := fun s =>
  ⟨toNat_tickByte s.dt, toNat_tickByte s.st, changesOnly_tickTimers s⟩

/-- Settles O8. -/
theorem setKeysAndTone : Obligations.SetKeysAndTone := fun s k =>
  ⟨fun _ hn => (s.setKeys k).key_of_lt hn, changesOnly_setKeys s k, decide_eq_true_iff⟩

/-- Settles O18: the recorded fault is answered again, and of the commands only a reset writes the status. -/
theorem faultedMachineIsStuck : Obligations.FaultedMachineIsStuck := by
  intro s r hs
  refine ⟨⟨_, step_faulted s r hs, rfl, changesOnly_setOutcome s _, fun hc => ?_⟩, hs, toNat_tickByte s.dt,
    toNat_tickByte s.st, fun k => ⟨hs, rfl⟩, fun image => ?_⟩
  · exact State.setOutcome_fault_of_consistent hc hs
  · rw [s.status_resetWith image, hs]

/-- Settles O20: the step is the advance and the outcome that the report mode chooses. -/
theorem invalidOpcodeOnlyAdvancesPc : Obligations.InvalidOpcodeOnlyAdvancesPc := by
  intro s hrun hf hd
  refine ⟨_, step_of_invalid hrun hf hd, rfl, hrun, fun hwarn => ?_, fun hsilent => ?_, ?_⟩
  · rw [State.setOutcome_outcome, hwarn, invalidOutcome]
  · rw [State.setOutcome_outcome, hsilent, invalidOutcome]
  · exact (changesOnly_setPc s _).setOutcome_among _

end Sys2Proof.Proofs

/-! # The obligation on a refused reset (70_reset_and_hazards.md) -/

namespace Sys2Proof.Proofs

open Sys2Proof.Machine

/-- Settles O2: the two branches of a reset, an image above 3584 bytes and one that fits. -/
theorem resetRefusesTooLargeImage : Obligations.ResetRefusesTooLargeImage := by
  intro s image
  refine ⟨fun hlarge => ?_, fun hfits => ?_⟩
  · have h := s.resetWith_of_tooLarge image (Nat.not_le.mpr hlarge)
    exact ⟨h, by rw [h, resetCode]⟩
  · have h := s.resetWith_of_fits image hfits
    exact ⟨by rw [h], by rw [h, resetCode]⟩

end Sys2Proof.Proofs
